-- ==== Sys2Proof/Word.lean ====
section
/-! DEFINITION. The bit vectors of the IAS CORE (spec/00_scope.md R5, R8). -/

namespace Sys2Proof

/-- A 40-bit word of main memory, MBR, AC and MQ (R5 `WORD_BITS`). -/
abbrev Word := BitVec 40

/-- A 20-bit instruction, half of a word (R5 `INSTR_BITS`). -/
abbrev Half := BitVec 20

/-- The 8-bit opcode field of an instruction (R5 `OPCODE_BITS`). -/
abbrev Opcode := BitVec 8

/-- The 12-bit address field of an instruction (R5 `ADDR_BITS`). -/
abbrev Addr := BitVec 12

end Sys2Proof
end

