-- ==== Sys2Proof/Config.lean ====
section
/-! DEFINITION. What an implementation of the IAS CORE fixes: the bound of its memory, and the parameters the model's
one reset state takes. No value of this hardware is free (spec/93_implementation_defined.md, "Nothing in this hardware is
modelled as `any value`"), so no constant here is opaque. -/

namespace Sys2Proof.Config

/-- The largest memory length: `N <= 4096` (spec/00_scope.md R6). -/
def maxWords : Nat := 4096

/-- The bound of the arithmetic unit's results: a result `s >= 2^40` is not representable (spec/42_arithmetic.md R133). -/
def resultBound : Nat := 2 ^ 40

/-- The length of the memory in `State.reset`.
DESIGN CHOICE (log entry 1, unsafe): the spec leaves `N` a parameter; every other definition takes any `N`. -/
def resetWords : Nat := 4096

end Sys2Proof.Config
end

