-- ==== Sys2Proof/Machine/Memory.lean ====
section
/-! DEFINITION. Main memory: an array of `N` 40-bit words (spec/10_state.md R33, spec/20_memory.md R50), held as a list of
(index, word) pairs in one canonical form. The cell is the word, the hardware's only addressable unit (R50; log entry 3). -/

namespace Sys2Proof.Machine

/-- One listed word: its index and its value. -/
abbrev Cell := Nat × Word

/-- What an index below `N` reads as when no cell lists it. Every word of `IMAGE` is given (R33), so this is only the
list's shorthand for a word of forty zeros (log entry 2). -/
def unlistedWord : Word := 0

/-- Main memory: `size` is `N`; `cells` lists the words that differ from `unlistedWord`. -/
structure Memory where
  /-- `N`, the number of words (spec/00_scope.md R6). -/
  size : Nat
  /-- The listed words, indices strictly rising. -/
  cells : List Cell
deriving DecidableEq, Repr

/-- The word a cell list gives an index. -/
def lookupCell (a : Nat) : List Cell → Word
  | [] => unlistedWord
  | (k, v) :: rest => if a = k then v else lookupCell a rest

/-- The cells without those at index `a`. -/
def eraseCell (a : Nat) : List Cell → List Cell
  | [] => []
  | (k, v) :: rest => if a = k then eraseCell a rest else (k, v) :: eraseCell a rest

/-- The cells with `(a, v)` put before the first larger index. -/
def insertCell (a : Nat) (v : Word) : List Cell → List Cell
  | [] => [(a, v)]
  | (k, w) :: rest => if a < k then (a, v) :: (k, w) :: rest else (k, w) :: insertCell a v rest

/-- Every index is at least `lo`, below `n` and above the one before it, and no listed word is the unlisted one. -/
def canonicalCells (lo n : Nat) : List Cell → Bool
  | [] => true
  | (k, v) :: rest => decide (lo ≤ k) && decide (k < n) && !(v == unlistedWord) && canonicalCells (k + 1) n rest

/-- The canonical form, with `N <= 4096` (R6): equal memories are equal data. -/
def Memory.wf (m : Memory) : Bool := decide (m.size ≤ Config.maxWords) && canonicalCells 0 m.size m.cells

/-- `M[a]` (spec/00_scope.md R10), for an index below `N`. -/
def Memory.read (m : Memory) (a : Nat) : Word := lookupCell a m.cells

/-- `M[a] <- v` for an index below `N`: one whole word is replaced (spec/20_memory.md R54). -/
def Memory.write (m : Memory) (a : Nat) (v : Word) : Memory :=
  { m with cells := if v = unlistedWord then eraseCell a m.cells else insertCell a v (eraseCell a m.cells) }

/-- The cells of an image whose first word has index `a`. -/
def imageCells (a : Nat) : List Word → List Cell
  | [] => []
  | v :: rest => if v = unlistedWord then imageCells (a + 1) rest else (a, v) :: imageCells (a + 1) rest

/-- `M[a] = IMAGE[a]` for every `a`, and `N` is the image's length (R6, R33). -/
def Memory.ofImage (image : List Word) : Memory := { size := image.length, cells := imageCells 0 image }

end Sys2Proof.Machine
end

