-- ==== Sys2Proof/Machine/State.lean ====
section
/-! DEFINITION. The complete state of the IAS CORE (spec/10_state.md R20), its faults, and its reset
(spec/70_reset_and_hazards.md R180). -/

namespace Sys2Proof.Machine

/-- The names a fault can give as the register that was never written (spec/60_exceptions.md R150, "IR", "AC", "MBR" or
"IBR"). -/
inductive RegName where
  | ir
  | ac
  | mbr
  | ibr
deriving DecidableEq, Repr

/-- `kind` and `info` of the FAULTED condition: the closed list of R150. Taking one is a NEXT state (R157, log entry 5). -/
inductive RunFault where
  /-- Code 1, image load only, never raised by a phase (R152); `index` is the offending image element. -/
  | malformedWord (index : Nat)
  /-- Code 2 (R153): an arithmetic or decode use, or a store, of a register never written. -/
  | uninitializedRegister (register : RegName)
  /-- Code 3 (R154): a memory access with MAR >= N; `index` is the value of MAR. -/
  | addressOutOfRange (index : Nat)
  /-- Code 4 (R155): ADD M(X) with a sum >= 2^40; `sum` is that sum, which needs 41 bits. -/
  | overflow (sum : Nat)
deriving DecidableEq, Repr

/-- The phase that is performed next (R30). -/
inductive Phase where
  | fetchLeft
  | execLeft
  | fetchRight
  | execRight
deriving DecidableEq, Repr

/-- The run status (R31). -/
inductive Status where
  | running
  | done
  | faulted (f : RunFault)
deriving DecidableEq, Repr

/-- The state tuple of R20. An `Option` register is `none` in the spec's `uninitialized` condition ⊥, which is a
state of the register and not a bit pattern (R21). -/
structure State where
  /-- Program Counter, 0 .. N: an "integer index into memory, not a bit-string" (R22). -/
  pc : Nat
  /-- Memory Address Register, 0 .. 4095, an integer, never ⊥ (R23; log entry 4). -/
  mar : Nat
  /-- Memory Buffer Register, 40 bits or ⊥ (R24). -/
  mbr : Option Word
  /-- Instruction Register, the 8-bit opcode or ⊥ (R25). -/
  ir : Option Opcode
  /-- Instruction Buffer Register, the 20-bit right instruction or ⊥ (R26). -/
  ibr : Option Half
  /-- Accumulator, 40 bits or ⊥ (R27). -/
  ac : Option Word
  /-- Multiplier-Quotient, 40 bits or ⊥ (R28). -/
  mq : Option Word
  /-- Main memory, `N` words (R33). -/
  mem : Memory
  /-- The phase performed next (R30). -/
  phase : Phase
  /-- RUNNING, DONE or FAULTED(kind, info) (R31). -/
  status : Status
deriving DecidableEq, Repr

/-- Why a step, or a load of an image, stops without a next state. A fault of an instruction is not here: it is TAKEN,
as a next state whose status is FAULTED (R157, log entry 5). -/
inductive Fault where
  /-- Raised by `step` in DONE: "In DONE and FAULTED `step()` has no transition" (spec/40_instruction_cycle.md R101). Safe. -/
  | runDone
  /-- Raised by `step` in FAULTED with that fault: the condition is sticky (R157, R101). Safe. -/
  | runFaulted (f : RunFault)
  /-- Raised by `loadText`: element `index` of a text image is not 40 binary digits, and the run does not start (R152). Safe. -/
  | malformedImage (index : Nat)
deriving DecidableEq, Repr

/-- What the model declines to do. -/
inductive Refusal where
  /-- An arm of `exec` that has no meaning yet. No arm raises it: every instruction has its meaning. Safe. -/
  | notModelled (mnemonic : String)
  /-- Raised by `loadWords` and `loadText`: an image of more than 4096 words (R6; spec/92_eei_decisions.md D4, "refused"). Safe. -/
  | imageTooLong (words : Nat)
deriving DecidableEq, Repr

/-- The state right after reset over a seeded memory (spec/70_reset_and_hazards.md R180). -/
def State.start (m : Memory) : State where
  pc := 0
  mar := 0
  mbr := none
  ir := none
  ibr := none
  ac := none
  mq := none
  mem := m
  phase := .fetchLeft
  status := if 0 < m.size then .running else .done

/-- Reset for an image; `N` is its length (R180, R6). -/
def State.resetFor (image : List Word) : State := State.start (Memory.ofImage image)

/-- Reset with the parameters this model names: `N` = `Config.resetWords` and an image of zeros, so that no word is
listed. DESIGN CHOICE (log entries 1 and 2, unsafe): `N` and `IMAGE` are parameters of the spec. -/
def State.reset : State := State.start { size := Config.resetWords, cells := [] }

end Sys2Proof.Machine
end

