-- ==== Sys2Proof/Machine/Flags.lean ====
section
/-! DEFINITION. "There is no flag, condition code or predicate register" (spec/10_state.md R32), so no flag is computed.
The one condition an arithmetic result is tested for is its bound (spec/42_arithmetic.md R133), and it stands here with
the two primitives of the arithmetic unit (R130). -/

namespace Sys2Proof.Machine

/-- R133: a result below 2^40 is returned as 40 bits; any other raises `Overflow(s)` and returns nothing. -/
def boundResult (s : Nat) : Except RunFault Word :=
  if Config.resultBound ≤ s then .error (.overflow s) else .ok (BitVec.ofNat 40 s)

/-- ADD_ABSOLUTE: `|toInteger(a) + toInteger(b)|` (R131), bounded (R133). The operands are unsigned naturals (R76). -/
def addAbsolute (a b : Word) : Except RunFault Word := boundResult ((a.toNat : Int) + (b.toNat : Int)).natAbs

/-- ADD, the direct add: `toInteger(a) + toInteger(b)`, bounded; no opcode selects it (R132). -/
def addDirect (a b : Word) : Except RunFault Word := boundResult (a.toNat + b.toNat)

end Sys2Proof.Machine
end

