-- ==== Sys2Proof/Syntax.lean ====
section
/-! DEFINITION. The instructions of the IAS CORE: the seven rows of spec/opcode_table.json (spec/30_encoding.md R78). -/

namespace Sys2Proof

/-- One constructor for each row of the opcode table. `x` is the address field X, which every instruction has,
those that ignore it too (R71, R81). -/
inductive Instr where
  /-- `LOAD M(X)`, opcode 0x01 (spec/41_data_transfer.md R120). -/
  | loadMX (x : Addr)
  /-- `LOAD MQ,M(X)`, opcode 0x09 (R121). -/
  | loadMqMX (x : Addr)
  /-- `LOAD MQ`, opcode 0x0A; X is ignored (R122). -/
  | loadMq (x : Addr)
  /-- `STOR M(X)`, opcode 0x21 (R123). -/
  | storMX (x : Addr)
  /-- `ADD M(X)`, opcode 0x07 (spec/42_arithmetic.md R134). -/
  | addMX (x : Addr)
  /-- `SUB M(X)`, opcode 0x06 (R135). -/
  | subMX (x : Addr)
  /-- Any of the 250 other opcodes `op`; X is ignored (spec/43_other_opcodes.md R140). -/
  | other (op : Opcode) (x : Addr)
deriving DecidableEq, Repr

end Sys2Proof
end

