-- ==== Sys2Proof/WellFormed.lean ====
section
/-! DEFINITION. Which terms of `Instr` stand for an instruction (spec/30_encoding.md R78). -/

namespace Sys2Proof

/-- The six recognized opcodes, in the order of the source's table (R78). -/
def recognizedOpcodes : List Opcode := [0x01, 0x09, 0x0A, 0x21, 0x07, 0x06]

/-- The opcode is one of the six of R78. -/
def isRecognized (op : Opcode) : Bool := recognizedOpcodes.contains op

/-- A term is well formed unless it is an `other` that carries one of the six recognized opcodes
(R140: "any instruction whose opcode is none of 0x01, 0x06, 0x07, 0x09, 0x0A, 0x21"). -/
def Instr.wellFormed : Instr → Bool
  | .loadMX _ => true
  | .loadMqMX _ => true
  | .loadMq _ => true
  | .storMX _ => true
  | .addMX _ => true
  | .subMX _ => true
  | .other op _ => !isRecognized op

end Sys2Proof
end

