-- ==== Sys2Proof/Decode.lean ====
section
/-! DEFINITION. The codec of spec/30_encoding.md: the word unpacker, the field extractors, the conversions, the
decoder and the encoder. Decoding is total: "No word and no instruction is refused by the decoder" (R86), so there is
nothing here to reject. -/

namespace Sys2Proof

/-! ### The word unpacker and the field extractors (R70 to R74) -/

/-- `w[39:20]`, the left instruction (R70, R72). -/
def leftOf (w : Word) : Half := w.extractLsb' 20 20

/-- `w[19:0]`, the right instruction (R70, R72). -/
def rightOf (w : Word) : Half := w.extractLsb' 0 20

/-- `splitWord(w) = (w[39:20], w[19:0])` (R72). -/
def splitWord (w : Word) : Half × Half := (leftOf w, rightOf w)

/-- `w = left ++ right` (R70). -/
def joinWord (l r : Half) : Word := l ++ r

/-- `opcodeOf(ins) = ins[19:12]` (R73). -/
def opcodeOf (ins : Half) : Opcode := ins.extractLsb' 12 8

/-- `addressOf(ins) = ins[11:0]` (R74). -/
def addressOf (ins : Half) : Addr := ins.extractLsb' 0 12

/-- `ins = opcode ++ address` (R71). -/
def joinHalf (op : Opcode) (x : Addr) : Half := op ++ x

/-! ### The conversions (R75, R76) -/

/-- `toInteger(bits)`: the natural number the bits denote, leftmost digit most significant; never negative (R75, R76). -/
def toInteger {n : Nat} (v : BitVec n) : Nat := v.toNat

/-- `toBits(integer, width)`: the W-bit value `v` for `v < 2^W`. Outside that domain no rule defines it (R75, U10), so it
answers nothing there. -/
def toBits (v W : Nat) : Option (BitVec W) := if v < 2 ^ W then some (BitVec.ofNat W v) else none

/-! ### The opcode map (R78) -/

/-- The instruction that an opcode and an address field stand for: the opcode alone selects the row, and every pattern
outside the six is the last row (R78, R80). -/
def decodeFields (op : Opcode) (x : Addr) : Instr :=
  if op = 0x01 then .loadMX x
  else if op = 0x09 then .loadMqMX x
  else if op = 0x0A then .loadMq x
  else if op = 0x21 then .storMX x
  else if op = 0x07 then .addMX x
  else if op = 0x06 then .subMX x
  else .other op x

/-- The decoder: any 20-bit value (R86). -/
def decode (ins : Half) : Instr := decodeFields (opcodeOf ins) (addressOf ins)

/-- Both instructions of a word, left first (R70, R72, R83). -/
def decodeWord (w : Word) : Instr × Instr := (decode (leftOf w), decode (rightOf w))

/-! ### The encoder (R71, R78) -/

/-- The opcode field of an instruction, from the table of R78. -/
def Instr.opcode : Instr → Opcode
  | .loadMX _ => 0x01
  | .loadMqMX _ => 0x09
  | .loadMq _ => 0x0A
  | .storMX _ => 0x21
  | .addMX _ => 0x07
  | .subMX _ => 0x06
  | .other op _ => op

/-- The address field of an instruction (R71). -/
def Instr.address : Instr → Addr
  | .loadMX x => x
  | .loadMqMX x => x
  | .loadMq x => x
  | .storMX x => x
  | .addMX x => x
  | .subMX x => x
  | .other _ x => x

/-- The 20 bits of an instruction: `opcode ++ address` (R71). -/
def encode (i : Instr) : Half := joinHalf i.opcode i.address

/-- The word that holds two instructions (R70). -/
def encodeWord (l r : Instr) : Word := joinWord (encode l) (encode r)

/-! ### Words as data (R82) -/

/-- The row of the opcode table is the last one. -/
def Instr.isOther : Instr → Bool
  | .loadMX _ => false
  | .loadMqMX _ => false
  | .loadMq _ => false
  | .storMX _ => false
  | .addMX _ => false
  | .subMX _ => false
  | .other _ _ => true

/-- A word is inert when both its halves are without effect (R82). -/
def inertWord (w : Word) : Bool := (decode (leftOf w)).isOther && (decode (rightOf w)).isOther

/-! ### The host's table numbering -/

/-- The 20 bits of a table word: its low `nbits` bits; the bits above are zero. -/
def tableHalf (nbits w : Nat) : Half := BitVec.ofNat 20 (w % 2 ^ nbits)

/-- The instruction the decoder reads from an instruction whose bits are `w` (an instruction is 20 bits, R71, so a word
with a bit above bit 19 is no instruction). -/
def decodeTableWord (nbits w : Nat) : Option Instr :=
  if w % 2 ^ nbits < 2 ^ 20 then some (decode (tableHalf nbits w)) else none

end Sys2Proof
end

