-- ==== Sys2Proof/Machine/Ops.lean ====
section
/-! DEFINITION. The operations every phase is written with: the registers' writes, `raise` and the entry of a fault
(spec/60_exceptions.md R157), and the memory primitives and staged accesses (spec/20_memory.md R53 to R56). -/

namespace Sys2Proof.Machine

/-! ### Register writes, `R <- v` (spec/00_scope.md R10) -/

/-- `PC <- v`. -/
def State.setPc (s : State) (v : Nat) : State := { s with pc := v }
/-- `MAR <- v`. -/
def State.setMar (s : State) (v : Nat) : State := { s with mar := v }
/-- `MBR <- v`. -/
def State.setMbr (s : State) (v : Word) : State := { s with mbr := some v }
/-- `IR <- v`. -/
def State.setIr (s : State) (v : Opcode) : State := { s with ir := some v }
/-- `IBR <- v`. -/
def State.setIbr (s : State) (v : Half) : State := { s with ibr := some v }
/-- `AC <- v`; only LOAD MQ gives it ⊥ (R10, spec/41_data_transfer.md R122). -/
def State.setAc (s : State) (v : Option Word) : State := { s with ac := v }
/-- `MQ <- v`. -/
def State.setMq (s : State) (v : Option Word) : State := { s with mq := v }
/-- Main memory becomes `m`. -/
def State.setMem (s : State) (m : Memory) : State := { s with mem := m }
/-- `phase <- p`. -/
def State.setPhase (s : State) (p : Phase) : State := { s with phase := p }
/-- `status <- v`. -/
def State.setStatus (s : State) (v : Status) : State := { s with status := v }

/-- RUNNING: the sequencer performs phases (spec/10_state.md R31). -/
def State.isRunning (s : State) : Bool := decide (s.status = .running)

/-! ### Raising and taking a fault -/

/-- How the operation of a phase ends: it is done, or it raised a fault after the assignments that `s` holds
(spec/00_scope.md R10 `raise`; "State-or-fault", spec/40_instruction_cycle.md R112). -/
inductive Res where
  | done (s : State)
  | raised (f : RunFault) (s : State)
deriving DecidableEq, Repr

/-- The assignments made, whichever way it ended (R157 (1)). -/
def Res.state : Res → State
  | .done s => s
  | .raised _ s => s

/-- Fault entry: the status records kind and info, and nothing else changes; nothing is saved, no handler is entered
(R157). There is no return from it: "Recovery is reset only" (R160). -/
def State.takeFault (s : State) (f : RunFault) : State := s.setStatus (.faulted f)

/-- The outcome of a phase's operation: the next state, in which a raised fault has been taken (R157; log entry 5). -/
def Res.outcome : Res → Host.Outcome State Fault Refusal
  | .done s => .next s
  | .raised f s => .next (s.takeFault f)

/-! ### The memory primitives (R53, R54) -/

/-- `MemRead(addr, 40)` (R53). -/
def memRead (m : Memory) (addr : Nat) : Except RunFault Word :=
  if m.size ≤ addr then .error (.addressOutOfRange addr) else .ok (m.read addr)

/-- `MemWrite(addr, 40, v)` (R54). -/
def memWrite (m : Memory) (addr : Nat) (v : Word) : Except RunFault Memory :=
  if m.size ≤ addr then .error (.addressOutOfRange addr) else .ok (m.write addr v)

/-! ### The staged protocol (R55, R56) -/

/-- `readMemory()` followed by statements `k` that use the word now in MBR; a fault leaves MBR alone and performs none
of them (R55, R157). -/
def readMemoryThen (s : State) (k : Word → State → Res) : Res :=
  match memRead s.mem s.mar with
  | .error f => .raised f s
  | .ok w => k w (s.setMbr w)

/-- `readMemory()`: `MBR <- MemRead(MAR, 40)` (R55). -/
def readMemory (s : State) : Res := readMemoryThen s fun _ t => .done t

/-- `writeMemory()`: the bounds test, then the test of MBR = ⊥, then `MemWrite(MAR, 40, MBR)` (R56). -/
def writeMemory (s : State) : Res :=
  if s.mem.size ≤ s.mar then .raised (.addressOutOfRange s.mar) s
  else
    match s.mbr with
    | none => .raised (.uninitializedRegister .mbr) s
    | some w =>
      match memWrite s.mem s.mar w with
      | .error f => .raised f s
      | .ok m => .done (s.setMem m)

end Sys2Proof.Machine
end

