-- ==== Sys2Proof/Machine/Operands.lean ====
section
/-! DEFINITION. The one operand form of the hardware: M(X), the word at the absolute index X that the fetch phase left in
MAR (spec/30_encoding.md R79, spec/40_instruction_cycle.md R106), and the instruction that IR and MAR stage. -/

namespace Sys2Proof.Machine

/-- The integer value of an instruction's address field, as a fetch phase puts it in MAR (R79). -/
def addressValue (ins : Half) : Nat := toInteger (addressOf ins)

/-- The instruction staged in IR and MAR; IR alone selects the row (R106). MAR fits the field in a driven run (R23; log entry 4). -/
def stagedInstr (op : Opcode) (mar : Nat) : Instr := decodeFields op (BitVec.ofNat 12 mar)

end Sys2Proof.Machine
end

