-- ==== Sys2Proof/Machine/Arith.lean ====
section
/-! DEFINITION. The arithmetic instructions (spec/42_arithmetic.md R134, R135). -/

namespace Sys2Proof.Machine

/-- `AC <- |AC + MBR|` for the operand `b` in MBR: the test of AC = ⊥ first, then the bound (R134). -/
def addOperand (b : Word) (s : State) : Res :=
  match s.ac with
  | none => .raised (.uninitializedRegister .ac) s
  | some a =>
    match addAbsolute a b with
    | .error f => .raised f s
    | .ok v => .done (s.setAc (some v))

/-- ADD M(X): `readMemory()`, then the addition; the tests come in that order (R134, R159). -/
def execAddMX (s : State) : Host.Outcome State Fault Refusal := (readMemoryThen s addOperand).outcome

/-- SUB M(X): `readMemory()` and nothing else; AC is neither read nor written (R135). -/
def execSubMX (s : State) : Host.Outcome State Fault Refusal := (readMemory s).outcome

end Sys2Proof.Machine
end

