-- ==== Sys2Proof/Machine/Other.lean ====
section
/-! DEFINITION. Every other opcode (spec/43_other_opcodes.md R140, R141). -/

namespace Sys2Proof.Machine

/-- OTHER: nothing; no access, no fault, whatever the opcode and the address field hold (R140). -/
def execOther (s : State) : Host.Outcome State Fault Refusal := (Res.done s).outcome

end Sys2Proof.Machine
end

