-- ==== Sys2Proof/Machine/Transfer.lean ====
section
/-! DEFINITION. The data transfer instructions (spec/41_data_transfer.md). The address is the one staged in MAR
(spec/40_instruction_cycle.md R106). "No instruction changes PC, IR, IBR or MAR." -/

namespace Sys2Proof.Machine

/-- LOAD M(X): `readMemory(); AC <- MBR` (R120). -/
def execLoadMX (s : State) : Host.Outcome State Fault Refusal :=
  (readMemoryThen s fun _ t => .done (t.setAc t.mbr)).outcome

/-- LOAD MQ,M(X): `readMemory(); MQ <- MBR` (R121). -/
def execLoadMqMX (s : State) : Host.Outcome State Fault Refusal :=
  (readMemoryThen s fun _ t => .done (t.setMq t.mbr)).outcome

/-- LOAD MQ: `AC <- MQ`, the condition ⊥ included; no access, no fault (R122). -/
def execLoadMq (s : State) : Host.Outcome State Fault Refusal := (Res.done (s.setAc s.mq)).outcome

/-- STOR M(X): `writeMemory()`. It stores MBR and does not read AC (R123). -/
def execStorMX (s : State) : Host.Outcome State Fault Refusal := (writeMemory s).outcome

end Sys2Proof.Machine
end

