-- ==== Sys2Proof/Machine/Dispatch.lean ====
section
/-! DEFINITION. The dispatch of `execute()` (spec/40_instruction_cycle.md R106): one arm for each row of the opcode map. -/

namespace Sys2Proof.Machine

/-- The execute phase of one instruction. The operation takes its address from MAR, which the fetch phase loaded with the
instruction's address field, so the field itself is not read again (R106). -/
def exec (i : Instr) (s : State) : Host.Outcome State Fault Refusal :=
  match i with
  | .loadMX _ => Sys2Proof.Machine.execLoadMX s
  | .loadMqMX _ => Sys2Proof.Machine.execLoadMqMX s
  | .loadMq _ => Sys2Proof.Machine.execLoadMq s
  | .storMX _ => Sys2Proof.Machine.execStorMX s
  | .addMX _ => Sys2Proof.Machine.execAddMX s
  | .subMX _ => Sys2Proof.Machine.execSubMX s
  | .other _ _ => Sys2Proof.Machine.execOther s

end Sys2Proof.Machine
end

