-- ==== Sys2Proof/Machine/Fetch.lean ====
section
/-! DEFINITION. The two fetch phases (spec/40_instruction_cycle.md R102, R104), as functions of any state (R112), and the
placing of one instruction where the next fetch finds it. -/

namespace Sys2Proof.Machine

/-- FETCH_LEFT: stages the left instruction of `M[PC]`; PC is not advanced (R102). -/
def fetchLeft (s : State) : Res :=
  readMemoryThen (s.setMar s.pc) fun w t =>
    .done (((t.setIbr (rightOf w)).setIr (opcodeOf (leftOf w))).setMar (addressValue (leftOf w)))

/-- The end of FETCH_RIGHT: the BUFFERED right instruction is decoded, its address staged, and then PC advances (R104).
`opcodeOf(⊥)` raises UninitializedRegister("IBR") (spec/30_encoding.md R73). -/
def stageBuffered (s : State) : Res :=
  match s.ibr with
  | none => .raised (.uninitializedRegister .ibr) s
  | some ins => .done (((s.setIr (opcodeOf ins)).setMar (addressValue ins)).setPc (s.pc + 1))

/-- FETCH_RIGHT: reads `M[PC]` again, rewrites IBR, stages the right instruction, and then advances PC by 1 (R104, R111). -/
def fetchRight (s : State) : Res :=
  readMemoryThen (s.setMar s.pc) fun w t => stageBuffered (t.setIbr (rightOf w))

/-- The memory with at least `n` words. -/
def Memory.atLeast (m : Memory) (n : Nat) : Memory := { m with size := max m.size n }

/-- `ins` as the left instruction of word `a`, the right one kept. -/
def Memory.putLeft (m : Memory) (a : Nat) (ins : Half) : Memory := m.write a (joinWord ins (rightOf (m.read a)))

/-- `ins` as the right instruction of word `a`, the left one kept. -/
def Memory.putRight (m : Memory) (a : Nat) (ins : Half) : Memory := m.write a (joinWord (leftOf (m.read a)) ins)

/-- The state in which `ins` is the left instruction of the current slot and FETCH_LEFT has staged it. -/
def placeLeft (s : State) (ins : Half) : State :=
  (fetchLeft ((s.setMem ((s.mem.atLeast (s.pc + 1)).putLeft s.pc ins)).setStatus .running)).state.setPhase .execLeft

/-- The state in which `ins` is the right instruction of the current slot and FETCH_RIGHT has staged it. -/
def placeRight (s : State) (ins : Half) : State :=
  (fetchRight ((s.setMem ((s.mem.atLeast (s.pc + 1)).putRight s.pc ins)).setStatus .running)).state.setPhase .execRight

/-- The half of the current slot that `phase` is at (R100); in EXEC_RIGHT PC has already left the slot (R105). -/
def placeInstr (s : State) (ins : Half) : State :=
  match s.phase with
  | .fetchLeft => placeLeft s ins
  | .execLeft => placeLeft s ins
  | .fetchRight => placeRight s ins
  | .execRight => placeRight (s.setPc (s.pc - 1)) ins

end Sys2Proof.Machine
end

