-- ==== Sys2Proof/Machine/Cycle.lean ====
section
/-! DEFINITION. The instruction cycle around the fetch phases: `execute()` (spec/40_instruction_cycle.md R106), the order
of the phases (R100, R101) and the end of the run (R109). -/

namespace Sys2Proof.Machine

/-- `execute()`: IR = ⊥ faults; otherwise the opcode in IR selects the operation (R106). -/
def execute (s : State) : Host.Outcome State Fault Refusal :=
  match s.ir with
  | none => (Res.raised (.uninitializedRegister .ir) s).outcome
  | some op => exec (stagedInstr op s.mar) s

/-- The phase after each phase (R100, R101). -/
def Phase.succ : Phase → Phase
  | .fetchLeft => .execLeft
  | .execLeft => .fetchRight
  | .fetchRight => .execRight
  | .execRight => .fetchLeft

/-- After a phase that raised nothing: the phase advances, and after EXEC_RIGHT the status becomes DONE if PC = N (R101, R109). -/
def advance (s : State) : State :=
  let t := s.setPhase s.phase.succ
  if s.phase = .execRight ∧ s.pc = s.mem.size then t.setStatus .done else t

/-- The sequencer's part of a phase: it advances unless the operation raised a fault (R101, R157 (3)). -/
def sequencer (o : Host.Outcome State Fault Refusal) : Host.Outcome State Fault Refusal :=
  match o with
  | .next s => .next (if s.isRunning then advance s else s)
  | .fault r => .fault r
  | .refused r => .refused r

/-- The operation of the phase that is next (R101). -/
def phaseOperation (s : State) : Host.Outcome State Fault Refusal :=
  match s.phase with
  | .fetchLeft => (fetchLeft s).outcome
  | .execLeft => execute s
  | .fetchRight => (fetchRight s).outcome
  | .execRight => execute s

/-- `step()` in RUNNING; in DONE and FAULTED there is no transition, a stuck state (R101, U15; log entry 5). -/
def stepOnce (s : State) : Host.Outcome State Fault Refusal :=
  match s.status with
  | .running => sequencer (phaseOperation s)
  | .done => .fault .runDone
  | .faulted f => .fault (.runFaulted f)

end Sys2Proof.Machine
end

