-- ==== Sys2Proof/Machine/Step.lean ====
section
/-! DEFINITION. One step is one phase (spec/00_scope.md R11; spec/40_instruction_cycle.md R101). -/

namespace Sys2Proof.Machine

/-- `step()` (R101). -/
def step (s : State) : Host.Outcome State Fault Refusal := stepOnce s

/-- The state in which the instruction `w` is the one the very next step runs: it stands in the half of the current slot
that `phase` is at, and the machine's own fetch phase has staged it (log entry 6). -/
def State.withFetchWord (s : State) (nbits w : Nat) : State := placeInstr s (tableHalf nbits w)

end Sys2Proof.Machine
end

