-- ==== Sys2Proof/Machine/Loader.lean ====
section
/-! DEFINITION. What the host does at the boundary of a run: it supplies `IMAGE`, as words or as text that is checked
(spec/60_exceptions.md R152; spec/70_reset_and_hazards.md R182), and it observes the pins (spec/60_exceptions.md R166). -/

namespace Sys2Proof.Machine

/-- One binary digit of a text element. -/
def digitOf (c : Char) : Option Nat := if c = '0' then some 0 else if c = '1' then some 1 else none

/-- The number a text denotes, leftmost digit most significant; none if a character is no binary digit. -/
def digitsValue (acc : Nat) : List Char → Option Nat
  | [] => some acc
  | c :: rest =>
    match digitOf c with
    | none => none
    | some d => digitsValue (2 * acc + d) rest

/-- A text element: exactly 40 characters, each `0` or `1`; short ones are not padded (R152, spec/90_conflicts.md C1). -/
def parseWord (text : List Char) : Option Word :=
  if text.length = 40 then (digitsValue 0 text).map (BitVec.ofNat 40) else none

/-- The words of a text image whose first element has index `k`, or the index of the first element that is not 40 binary
digits (R152; log entry 8). -/
def parseImage (k : Nat) : List (List Char) → Except Nat (List Word)
  | [] => .ok []
  | t :: rest =>
    match parseWord t with
    | none => .error k
    | some w =>
      match parseImage (k + 1) rest with
      | .error j => .error j
      | .ok ws => .ok (w :: ws)

/-- Reset over an image of words: refused above 4096 words (spec/00_scope.md R6, U16). -/
def loadWords (image : List Word) : Host.Outcome State Fault Refusal :=
  if image.length ≤ Config.maxWords then .next (State.resetFor image) else .refused (.imageTooLong image.length)

/-- Reset over an image given as text: a malformed element makes the load fail and the run does not start (R152). -/
def loadText (image : List (List Char)) : Host.Outcome State Fault Refusal :=
  match parseImage 0 image with
  | .error k => .fault (.malformedImage k)
  | .ok ws => loadWords ws

/-- The numeric code of a fault (R150). -/
def RunFault.code : RunFault → Nat
  | .malformedWord _ => 1
  | .uninitializedRegister _ => 2
  | .addressOutOfRange _ => 3
  | .overflow _ => 4

/-- The fault code a status shows; 0 means "no fault" (R150). -/
def Status.code : Status → Nat
  | .running => 0
  | .done => 0
  | .faulted f => f.code

/-- What the core presents to the host (R166). -/
structure Pins where
  /-- RUNNING, DONE or FAULTED, with the info when FAULTED. -/
  status : Status
  /-- The fault code of R150. -/
  code : Nat
  /-- The whole state, once not RUNNING. -/
  inspect : Option State
deriving DecidableEq, Repr

/-- The pins of a state (R166; the host may not look while RUNNING, spec/00_scope.md R14). -/
def State.pins (s : State) : Pins where
  status := s.status
  code := s.status.code
  inspect := if s.status = .running then none else some s

end Sys2Proof.Machine
end

