-- ==== Sys2Proof/Machine/Run.lean ====
section
/-! DEFINITION. The run: phases until the status is no longer RUNNING (spec/40_instruction_cycle.md R101). -/

namespace Sys2Proof.Machine

/-- At most `k` phases of `while status = RUNNING do step()` (R101). -/
def runFor : Nat → State → State
  | 0, s => s
  | k + 1, s =>
    match step s with
    | .next t => runFor k t
    | .fault _ => s
    | .refused _ => s

/-- `run()`: a run performs at most 4N phases (R109; log entry 9). -/
def run (s : State) : State := runFor (4 * s.mem.size) s

end Sys2Proof.Machine
end

