-- ==== Sys2Proof/Safety.lean ====
section
/-! DEFINITION. What claims about a run are stated in: the completed run, the invariant of a driven run
(spec/10_state.md R34, R35; spec/40_instruction_cycle.md R107, R111), and the count of its phases (R109). -/

namespace Sys2Proof.Machine

/-- "a claim about a program's result takes status = DONE as its premise" (spec/60_exceptions.md R157). -/
def State.Completed (s : State) : Prop := s.status = .done

/-- No fault has been taken. -/
def State.FaultFree (s : State) : Prop := ∀ f, s.status ≠ .faulted f

/-- IR and MAR stage the instruction `ins` (R107: "IR = its own opcode; MAR = its own address field X"). -/
def Stages (s : State) (ins : Half) : Prop := s.ir = some (opcodeOf ins) ∧ s.mar = addressValue ins

/-- The fetch of slot `k` is complete and `half` is the half executed: IBR, IR and MAR are those of the word (R107). -/
def FetchedFrom (s : State) (k : Nat) (half : Word → Half) : Prop :=
  k < s.mem.size ∧ s.ibr = some (rightOf (s.mem.read k)) ∧ Stages s (half (s.mem.read k))

/-- What an execute phase of slot `k` finds: the fetch is complete and MBR is "the entire 40-bit word that contains the
instruction" (R107). -/
def StagedFrom (s : State) (k : Nat) (half : Word → Half) : Prop :=
  FetchedFrom s k half ∧ s.mbr = some (s.mem.read k)

/-- A driven run between two phases, status RUNNING. In FETCH_RIGHT, IBR holds the right half of the word that is about
to be read again (R111 (a)). -/
def RunningInv (s : State) : Prop :=
  match s.phase with
  | .fetchLeft => s.pc < s.mem.size
  | .execLeft => StagedFrom s s.pc leftOf
  | .fetchRight => s.pc < s.mem.size ∧ s.ibr = some (rightOf (s.mem.read s.pc))
  | .execRight => 0 < s.pc ∧ StagedFrom s (s.pc - 1) rightOf

/-- The instruction performs a memory access: every row of the table but LOAD MQ and OTHER (spec/20_memory.md R51). -/
def accessesMemory : Instr → Bool
  | .loadMX _ => true
  | .loadMqMX _ => true
  | .loadMq _ => false
  | .storMX _ => true
  | .addMX _ => true
  | .subMX _ => true
  | .other _ _ => false

/-- The slot whose word cycle is in progress: PC, but in EXEC_RIGHT PC has already left it (R103, R105). -/
def slotOf (s : State) : Nat :=
  match s.phase with
  | .fetchLeft => s.pc
  | .execLeft => s.pc
  | .fetchRight => s.pc
  | .execRight => s.pc - 1

/-- The next phase is an execute phase. -/
def InExecute (s : State) : Prop := s.phase = .execLeft ∨ s.phase = .execRight

/-- A text element the loader takes: "exactly 40 characters, each `0` or `1`" (spec/60_exceptions.md R152). -/
def ValidText (text : List Char) : Prop := text.length = 40 ∧ ∀ c ∈ text, c = '0' ∨ c = '1'

/-- The five opcodes whose instruction accesses memory (spec/20_memory.md R51). -/
def accessingOpcodes : List Opcode := [0x01, 0x09, 0x21, 0x07, 0x06]

/-- What a fault taken in a driven run, in an execute phase of slot `k`, says about the state it left: the cause (R153 to
R155) and MBR and AC as tabulated (R158). -/
def FaultInv (s : State) (k : Nat) (f : RunFault) : Prop :=
  match f with
  | .malformedWord _ => False
  | .uninitializedRegister r =>
    r = .ac ∧ s.ir = some 0x07 ∧ s.mar < s.mem.size ∧ s.mbr = some (s.mem.read s.mar) ∧ s.ac = none
  | .addressOutOfRange a =>
    a = s.mar ∧ s.mem.size ≤ s.mar ∧ s.mbr = some (s.mem.read k) ∧ ∃ op ∈ accessingOpcodes, s.ir = some op
  | .overflow n =>
    s.ir = some 0x07 ∧ s.mar < s.mem.size ∧ s.mbr = some (s.mem.read s.mar) ∧ Config.resultBound ≤ n ∧
      ∃ a, s.ac = some a ∧ n = a.toNat + (s.mem.read s.mar).toNat

/-- A driven run that a fault has stopped: only an execute phase can (R156), its fetch is complete, and PC is the slot's
index, or one more in EXEC_RIGHT (R158). -/
def FaultedInv (s : State) (f : RunFault) : Prop :=
  match s.phase with
  | .fetchLeft => False
  | .execLeft => FetchedFrom s s.pc leftOf ∧ FaultInv s s.pc f
  | .fetchRight => False
  | .execRight => 0 < s.pc ∧ FetchedFrom s (s.pc - 1) rightOf ∧ FaultInv s (s.pc - 1) f

/-- The part of the invariant that the status selects. -/
def StatusInv (s : State) : Prop :=
  match s.status with
  | .running => RunningInv s
  | .done => s.pc = s.mem.size ∧ s.phase = .fetchLeft
  | .faulted f => FaultedInv s f

/-- The invariant of a driven run: widths and ranges (R34), canonical memory, and what each phase finds (R35, R107, R111). -/
def Inv (s : State) : Prop := s.mem.wf = true ∧ s.pc ≤ s.mem.size ∧ s.mar < 4096 ∧ StatusInv s

/-- A driven run over inert words only: no fault, and AC and MQ still ⊥ (spec/30_encoding.md R82). -/
def InertInv (s : State) : Prop :=
  Inv s ∧ s.FaultFree ∧ s.ac = none ∧ s.mq = none ∧ ∀ a, a < s.mem.size → inertWord (s.mem.read a) = true

/-- How many phases a driven run has completed in `s`, four a slot (R100, R108); in FAULTED, before the phase that faulted. -/
def phasesDone (s : State) : Nat :=
  match s.phase with
  | .fetchLeft => 4 * s.pc
  | .execLeft => 4 * s.pc + 1
  | .fetchRight => 4 * s.pc + 2
  | .execRight => 4 * (s.pc - 1) + 3

end Sys2Proof.Machine
end

