-- ==== Sys2Proof/Certificates/Slice0/Obligations.lean ====
section
/-! DEFINITION. The statements for the provers. Each docstring names the rule of spec/ it formalises, or, where it rests on
a decision or an inference that the spec marks as its own, says so. -/

open Sys2Proof Sys2Proof.Machine

/-! ### The codec and the opcode map (spec/30_encoding.md) -/

/-- R72: `splitWord(w) = ( w[39:20], w[19:0] )`, "total on every 40-bit value"; the slices are those of spec/00_scope.md R9 (b). -/
def Obligations.SplitWordGivesTheTwoHalves : Prop :=
  ∀ w : Word,
    splitWord w = (leftOf w, rightOf w) ∧
    (leftOf w).toNat = w.toNat / 2 ^ 20 % 2 ^ 20 ∧ (rightOf w).toNat = w.toNat / 2 ^ 0 % 2 ^ 20

/-- R73, R74 as slices, and the round trips (a), (b) of R77, which the spec marks as derived: the two halves joined give
the word, the two fields joined give the instruction. -/
def Obligations.PartsJoinedGiveTheWholeBack : Prop :=
  (∀ w : Word, joinWord (splitWord w).1 (splitWord w).2 = w) ∧
  (∀ ins : Half, joinHalf (opcodeOf ins) (addressOf ins) = ins ∧
    (opcodeOf ins).toNat = ins.toNat / 2 ^ 12 % 2 ^ 8 ∧ (addressOf ins).toNat = ins.toNat / 2 ^ 0 % 2 ^ 12)

/-- Round trip (c) of R77, which the spec marks as derived. That `toBits` answers nothing outside its domain is the
treatment U10 of spec/93_implementation_defined.md. -/
def Obligations.ToIntegerAndToBitsRoundTrip : Prop :=
  (∀ v W : Nat, v < 2 ^ W → ∃ b : BitVec W, toBits v W = some b ∧ toInteger b = v) ∧
  (∀ (W : Nat) (b : BitVec W), toBits (toInteger b) W = some b) ∧
  (∀ v W : Nat, 2 ^ W ≤ v → toBits v W = none)

/-- R78: "The value of the 8-bit opcode field alone selects the operation; the address field never takes part in
decoding." Each row by its match under the mask 0xFF000, and every other pattern the last row. -/
def Obligations.OpcodeFieldAloneSelectsTheRow : Prop :=
  ∀ ins : Half,
    (ins &&& 0xFF000#20 = 0x01000#20 → decode ins = .loadMX (addressOf ins)) ∧
    (ins &&& 0xFF000#20 = 0x09000#20 → decode ins = .loadMqMX (addressOf ins)) ∧
    (ins &&& 0xFF000#20 = 0x0A000#20 → decode ins = .loadMq (addressOf ins)) ∧
    (ins &&& 0xFF000#20 = 0x21000#20 → decode ins = .storMX (addressOf ins)) ∧
    (ins &&& 0xFF000#20 = 0x07000#20 → decode ins = .addMX (addressOf ins)) ∧
    (ins &&& 0xFF000#20 = 0x06000#20 → decode ins = .subMX (addressOf ins)) ∧
    (ins &&& 0xFF000#20 ∉ [0x01000#20, 0x09000#20, 0x0A000#20, 0x21000#20, 0x07000#20, 0x06000#20] →
      decode ins = .other (opcodeOf ins) (addressOf ins))

/-- The words of R85 and of vectors V9a to V9h decode to what they are written for. A check on fixed words. -/
def Obligations.SampleWordsDecode : Prop :=
  decodeWord 0x0100207003 = (.loadMX 2, .addMX 3) ∧
  decodeWord 0x2100207004 = (.storMX 2, .addMX 4) ∧
  decodeWord 0x090030AFFF = (.loadMqMX 3, .loadMq 0xFFF) ∧
  decodeWord 0x0700406004 = (.addMX 4, .subMX 4) ∧
  decode 0x01002 = .loadMX 2 ∧ decode 0x09FFF = .loadMqMX 4095 ∧ decode 0x0A123 = .loadMq 0x123 ∧ decode 0x21000 = .storMX 0 ∧
  decode 0x07003 = .addMX 3 ∧ decode 0x06004 = .subMX 4 ∧ decode 0x00000 = .other 0x00 0x000 ∧ decode 0x00FFF = .other 0x00 0xFFF

/-- Decode and encode agree: every well-formed instruction, with every address (and, for OTHER, every one of its 250
opcodes), is read back from its encoding, alone and as either half of a word. -/
def Obligations.DecodeOfEncodeIsTheInstruction : Prop :=
  (∀ i : Instr, i.wellFormed = true → decode (encode i) = i) ∧
  (∀ l r : Instr, l.wellFormed = true → r.wellFormed = true → decodeWord (encodeWord l r) = (l, r))

/-- R86 and the second half of the round trip, which the spec marks as derived: every one of the 2^20 values decodes, to
a well-formed instruction whose encoding it is. -/
def Obligations.EncodeOfDecodeIsTheWord : Prop :=
  ∀ ins : Half, (decode ins).wellFormed = true ∧ encode (decode ins) = ins

/-- R82 (marked derived by the spec): a word is inert exactly when neither opcode field is one of the six, and every data
value below 4096 is inert. -/
def Obligations.WordsBelow4096AreInert : Prop :=
  (∀ w : Word, inertWord w = true ↔ isRecognized (opcodeOf (leftOf w)) = false ∧ isRecognized (opcodeOf (rightOf w)) = false) ∧
  (∀ w : Word, w.toNat < 4096 → inertWord w = true)

/-! ### Reset and the load of an image (spec/70_reset_and_hazards.md, spec/60_exceptions.md section 1) -/

/-- The table of R180, whose register values are the spec's decisions D1, D2, D3 and D10: reset over an image of at most
4096 words. -/
def Obligations.ResetPutsEveryFieldAtItsValue : Prop :=
  ∀ image : List Word, image.length ≤ 4096 → ∃ s, loadWords image = .next s ∧ s = State.resetFor image ∧
    s.pc = 0 ∧ s.mar = 0 ∧ s.mbr = none ∧ s.ir = none ∧ s.ibr = none ∧ s.ac = none ∧ s.mq = none ∧
    s.mem.size = image.length ∧ (∀ (a : Nat) (h : a < image.length), s.mem.read a = image[a]) ∧
    s.phase = .fetchLeft ∧ s.status = (if 0 < image.length then .running else .done)

/-- The model's choice (log entries 1 and 2): `State.reset` is reset over 4096 words of zeros. -/
def Obligations.TheModelsResetIsOverZeros : Prop := State.reset = State.resetFor (List.replicate 4096 0)

/-- R152 (decision D15) and D4: a text image of at most 4096 elements, all of 40 digits, loads as the words its digits
denote, digit j being the bit of weight 2^(39-j); more than 4096 elements, all of 40 digits, are refused; a malformed
element stops the load under its index, however many elements there are. Two things here are the model's choice (log entry
8): the index reported is the FIRST malformed element's, and form is tested before length, so that an image of more than
4096 elements with a malformed one is reported as malformed and not refused. -/
def Obligations.TextImagesLoadOrAreRejected : Prop :=
  ∀ image : List (List Char),
    ((∀ t ∈ image, ValidText t) → image.length ≤ 4096 →
      ∃ ws : List Word, loadText image = .next (State.resetFor ws) ∧ ws.length = image.length ∧
        ∀ (k : Nat) (hk : k < image.length) (hw : k < ws.length) (j : Nat) (hj : j < image[k].length),
          (ws[k]).getLsbD (39 - j) = decide (image[k][j] = '1')) ∧
    ((∀ t ∈ image, ValidText t) → 4096 < image.length → loadText image = .refused (.imageTooLong image.length)) ∧
    (∀ (k : Nat) (hk : k < image.length), (∀ t ∈ image.take k, ValidText t) → ¬ ValidText image[k] →
      loadText image = .fault (.malformedImage k))

/-- R166 and the codes of R150 (decision D9): what the core presents to the host. -/
def Obligations.PinsShowStatusCodeAndTheStoppedState : Prop :=
  ∀ s : State,
    s.pins.status = s.status ∧
    (s.status = .running → s.pins.code = 0 ∧ s.pins.inspect = none) ∧
    (s.status = .done → s.pins.code = 0 ∧ s.pins.inspect = some s) ∧
    (∀ k, s.status = .faulted (.malformedWord k) → s.pins.code = 1 ∧ s.pins.inspect = some s) ∧
    (∀ r, s.status = .faulted (.uninitializedRegister r) → s.pins.code = 2 ∧ s.pins.inspect = some s) ∧
    (∀ a, s.status = .faulted (.addressOutOfRange a) → s.pins.code = 3 ∧ s.pins.inspect = some s) ∧
    (∀ v, s.status = .faulted (.overflow v) → s.pins.code = 4 ∧ s.pins.inspect = some s)

/-! ### Main memory (spec/20_memory.md) -/

/-- R53 and R54: a read below `N` gives the word and a write below `N` replaces that whole word and no other; both raise
AddressOutOfRange(addr) at `addr >= N`. -/
def Obligations.MemoryPrimitivesReadAndReplaceOneWord : Prop :=
  ∀ (m : Memory) (a : Nat) (v : Word),
    (a < m.size → memRead m a = .ok (m.read a) ∧
      ∃ m', memWrite m a v = .ok m' ∧ m'.size = m.size ∧ m'.read a = v ∧ ∀ b, b ≠ a → m'.read b = m.read b) ∧
    (m.size ≤ a → memRead m a = .error (.addressOutOfRange a) ∧ memWrite m a v = .error (.addressOutOfRange a))

/-- R55: `readMemory()` writes MBR with M[MAR] and nothing else; if it faults, MBR keeps its previous value. -/
def Obligations.StagedReadWritesMbrAndNothingElse : Prop :=
  ∀ s : State,
    (s.mar < s.mem.size → readMemory s = .done { s with mbr := some (s.mem.read s.mar) }) ∧
    (s.mem.size ≤ s.mar → readMemory s = .raised (.addressOutOfRange s.mar) s)

/-- R56, with the test of MBR = ⊥ that is decision D13: `writeMemory()` writes one slot and nothing else. -/
def Obligations.StagedWriteWritesOneSlotAndNothingElse : Prop :=
  ∀ s : State,
    (∀ w, s.mar < s.mem.size → s.mbr = some w → ∃ m, writeMemory s = .done { s with mem := m } ∧
      m.size = s.mem.size ∧ m.read s.mar = w ∧ ∀ b, b ≠ s.mar → m.read b = s.mem.read b) ∧
    (s.mar < s.mem.size → s.mbr = none → writeMemory s = .raised (.uninitializedRegister .mbr) s) ∧
    (s.mem.size ≤ s.mar → writeMemory s = .raised (.addressOutOfRange s.mar) s)

/-- The model's canonical form (log entry 2): memories of one length in canonical form that read alike are equal data. -/
def Obligations.CanonicalMemoriesThatReadAlikeAreEqual : Prop :=
  ∀ m m' : Memory, m.wf = true → m'.wf = true → m.size = m'.size → (∀ a, a < m.size → m.read a = m'.read a) → m = m'

/-- R64: "A word written by STOR M(X) is seen by every later fetch of index X, immediately", by either fetch phase. -/
def Obligations.FetchSeesTheStoredWord : Prop :=
  ∀ (x : Addr) (s : State) (w : Word), s.mar < s.mem.size → s.mbr = some w →
    ∃ t, exec (.storMX x) s = .next t ∧
      (∃ u, fetchLeft (t.setPc s.mar) = .done u ∧ u.mbr = some w ∧ Stages u (leftOf w)) ∧
      (∃ u, fetchRight (t.setPc s.mar) = .done u ∧ u.mbr = some w ∧ Stages u (rightOf w))

/-! ### The instruction cycle (spec/40_instruction_cycle.md) -/

/-- R102: what FETCH_LEFT reads, writes and raises, on any state; PC, AC, MQ and memory are not written. That the fault
leaves MAR = PC for a PC of 4096 or more as well, which a 12-bit MAR could not hold, is the model's (log entry 4, DEDUCED). -/
def Obligations.FetchLeftStagesTheLeftInstruction : Prop :=
  ∀ s : State,
    (s.pc < s.mem.size → ∃ w, w = s.mem.read s.pc ∧ fetchLeft s = .done
      { s with mbr := some w, ibr := some (rightOf w), ir := some (opcodeOf (leftOf w)), mar := (addressOf (leftOf w)).toNat }) ∧
    (s.mem.size ≤ s.pc → fetchLeft s = .raised (.addressOutOfRange s.pc) { s with mar := s.pc })

/-- R104: what FETCH_RIGHT reads, writes and raises, on any state; the increment of PC is last, so a fault leaves PC. That
the fault leaves MAR = PC for a PC of 4096 or more as well, which a 12-bit MAR could not hold, is the model's (log entry 4,
DEDUCED). -/
def Obligations.FetchRightStagesTheRightInstructionThenAdvancesPc : Prop :=
  ∀ s : State,
    (s.pc < s.mem.size → ∃ w, w = s.mem.read s.pc ∧ fetchRight s = .done
      { s with mbr := some w, ibr := some (rightOf w), ir := some (opcodeOf (rightOf w)), mar := (addressOf (rightOf w)).toNat, pc := s.pc + 1 }) ∧
    (s.mem.size ≤ s.pc → fetchRight s = .raised (.addressOutOfRange s.pc) { s with mar := s.pc })

/-- R106: "The dispatch reads IR only." IR = ⊥ raises UninitializedRegister("IR"); each opcode selects its operation,
whatever address is written in the term. -/
def Obligations.ExecuteDispatchesOnIrOnly : Prop :=
  ∀ (s : State) (x : Addr),
    (s.ir = none → execute s = .next (s.takeFault (.uninitializedRegister .ir))) ∧
    (s.ir = some 0x01 → execute s = exec (.loadMX x) s) ∧
    (s.ir = some 0x09 → execute s = exec (.loadMqMX x) s) ∧
    (s.ir = some 0x0A → execute s = exec (.loadMq x) s) ∧
    (s.ir = some 0x21 → execute s = exec (.storMX x) s) ∧
    (s.ir = some 0x07 → execute s = exec (.addMX x) s) ∧
    (s.ir = some 0x06 → execute s = exec (.subMX x) s) ∧
    (∀ op, isRecognized op = false → s.ir = some op → execute s = .next s)

/-- A step runs the decoded instruction. When the half of M[PC] that the fetch phase is at decodes to `i`, that fetch
stages it (its address in MAR, its whole word in MBR) and the next step is `exec i`, after which `sequencer` advances the
phase unless a fault was taken (R101, whose rendering is decision D10). -/
def Obligations.StepRunsTheDecodedInstruction : Prop :=
  ∀ (s : State) (i : Instr), s.status = .running → s.pc < s.mem.size →
    (s.phase = .fetchLeft → decode (leftOf (s.mem.read s.pc)) = i →
      ∃ t, step s = .next t ∧ t.status = .running ∧ t.phase = .execLeft ∧ t.pc = s.pc ∧ t.mem = s.mem ∧
        t.mar = i.address.toNat ∧ t.mbr = some (s.mem.read s.pc) ∧ step t = sequencer (exec i t)) ∧
    (s.phase = .fetchRight → decode (rightOf (s.mem.read s.pc)) = i →
      ∃ t, step s = .next t ∧ t.status = .running ∧ t.phase = .execRight ∧ t.pc = s.pc + 1 ∧ t.mem = s.mem ∧
        t.mar = i.address.toNat ∧ t.mbr = some (s.mem.read s.pc) ∧ step t = sequencer (exec i t))

/-- The host's way to place one instruction (log entry 6): `withFetchWord` leaves a RUNNING state at an execute phase in
which IR and MAR stage exactly that instruction, opcode and address, with the word of the slot that holds it in MBR and its
right half in IBR, as R107 has it; the very next step runs it. -/
def Obligations.WithFetchWordRunsThatInstructionNext : Prop :=
  ∀ (s : State) (nbits w : Nat) (i : Instr), decodeTableWord nbits w = some i →
    ∃ t, t = s.withFetchWord nbits w ∧ t.status = .running ∧ InExecute t ∧
      Stages t (tableHalf nbits w) ∧ t.ir = some i.opcode ∧ t.mar = i.address.toNat ∧
      t.mbr = some (t.mem.read (slotOf t)) ∧ t.ibr = some (rightOf (t.mem.read (slotOf t))) ∧
      (t.phase = .execLeft → leftOf (t.mem.read (slotOf t)) = tableHalf nbits w) ∧
      (t.phase = .execRight → rightOf (t.mem.read (slotOf t)) = tableHalf nbits w) ∧
      step t = sequencer (exec i t)

/-- R100 and R101 (rendering: decision D10), R109 (marked derived): a phase that raises nothing hands over to the next
phase, and the status becomes DONE exactly after EXEC_RIGHT with PC = N. -/
def Obligations.PhasesAdvanceInOrderUntilPcIsN : Prop :=
  ∀ s t : State, s.status = .running → step s = .next t →
    (t.status = .running → t.phase = s.phase.succ ∧ ¬ (s.phase = .execRight ∧ t.pc = t.mem.size)) ∧
    (t.status = .done → t.phase = .fetchLeft ∧ s.phase = .execRight ∧ t.pc = t.mem.size) ∧
    (∀ f, t.status = .faulted f → t.phase = s.phase)

/-- R101, R157 and R193 (decisions D17, D19): a RUNNING state always has a step and it answers a next state; in DONE and
FAULTED there is no transition. -/
def Obligations.StepAnswersExactlyWhileRunning : Prop :=
  ∀ s : State,
    (s.status = .running → ∃ t, step s = .next t) ∧
    (s.status = .done → step s = .fault .runDone) ∧
    (∀ f, s.status = .faulted f → step s = .fault (.runFaulted f))

/-- R108: "PC changes in exactly one place: the last assignment of FETCH_RIGHT"; no execute phase changes PC. -/
def Obligations.PcChangesOnlyAtTheEndOfFetchRight : Prop :=
  (∀ s t : State, step s = .next t → t.pc = if s.phase = .fetchRight ∧ s.pc < s.mem.size then s.pc + 1 else s.pc) ∧
  (∀ (i : Instr) (s t : State), exec i s = .next t → t.pc = s.pc)

/-! ### The instructions (spec/41_data_transfer.md, spec/42_arithmetic.md, spec/43_other_opcodes.md)
The address of a memory operand is the value of MAR, where the fetch phase put X (R107). -/

/-- R120: LOAD M(X), its encoding, its effect with everything else unchanged, and its one fault. -/
def Obligations.LoadMxLoadsAccumulatorAndMbr : Prop :=
  ∀ (x : Addr) (s : State),
    decode (joinHalf 0x01 x) = .loadMX x ∧
    (s.mar < s.mem.size → exec (.loadMX x) s = .next { s with mbr := some (s.mem.read s.mar), ac := some (s.mem.read s.mar) }) ∧
    (s.mem.size ≤ s.mar → exec (.loadMX x) s = .next { s with status := .faulted (.addressOutOfRange s.mar) })

/-- R121: LOAD MQ,M(X), its encoding, its effect with everything else unchanged, and its one fault. -/
def Obligations.LoadMqMxLoadsMqAndMbr : Prop :=
  ∀ (x : Addr) (s : State),
    decode (joinHalf 0x09 x) = .loadMqMX x ∧
    (s.mar < s.mem.size → exec (.loadMqMX x) s = .next { s with mbr := some (s.mem.read s.mar), mq := some (s.mem.read s.mar) }) ∧
    (s.mem.size ≤ s.mar → exec (.loadMqMX x) s = .next { s with status := .faulted (.addressOutOfRange s.mar) })

/-- R122, with the case MQ = ⊥ that is decision D8: LOAD MQ copies MQ into AC, ⊥ included, and never faults. -/
def Obligations.LoadMqCopiesMqIntoAccumulator : Prop :=
  ∀ (x : Addr) (s : State),
    decode (joinHalf 0x0A x) = .loadMq x ∧ exec (.loadMq x) s = .next { s with ac := s.mq }

/-- R123, with the test of MBR = ⊥ that is decision D13: STOR M(X) writes MBR, not AC, to M[MAR] and changes nothing else;
its two faults leave memory unchanged. -/
def Obligations.StorMxStoresMbr : Prop :=
  ∀ (x : Addr) (s : State),
    decode (joinHalf 0x21 x) = .storMX x ∧
    (∀ w, s.mar < s.mem.size → s.mbr = some w → ∃ m, exec (.storMX x) s = .next { s with mem := m } ∧
      m.size = s.mem.size ∧ m.read s.mar = w ∧ ∀ a, a ≠ s.mar → m.read a = s.mem.read a) ∧
    (s.mem.size ≤ s.mar → exec (.storMX x) s = .next { s with status := .faulted (.addressOutOfRange s.mar) }) ∧
    (s.mar < s.mem.size → s.mbr = none → exec (.storMX x) s = .next { s with status := .faulted (.uninitializedRegister .mbr) })

/-- R134, with the 40-bit bound that is decision D5 and the order of the tests that is decision D7: ADD M(X). The sum is that of the
naturals: no word `v` has the value of a sum of 2^40 or more. -/
def Obligations.AddMxAddsOrFaultsInOrder : Prop :=
  ∀ (x : Addr) (s : State),
    decode (joinHalf 0x07 x) = .addMX x ∧
    (∀ a v : Word, s.mar < s.mem.size → s.ac = some a → v.toNat = a.toNat + (s.mem.read s.mar).toNat →
      exec (.addMX x) s = .next { s with mbr := some (s.mem.read s.mar), ac := some v }) ∧
    (s.mem.size ≤ s.mar → exec (.addMX x) s = .next { s with status := .faulted (.addressOutOfRange s.mar) }) ∧
    (s.mar < s.mem.size → s.ac = none → exec (.addMX x) s =
      .next { s with mbr := some (s.mem.read s.mar), status := .faulted (.uninitializedRegister .ac) }) ∧
    (∀ a : Word, s.mar < s.mem.size → s.ac = some a → 2 ^ 40 ≤ a.toNat + (s.mem.read s.mar).toNat → exec (.addMX x) s =
      .next { s with mbr := some (s.mem.read s.mar), status := .faulted (.overflow (a.toNat + (s.mem.read s.mar).toNat)) })

/-- R135, whose read is decision D6: SUB M(X) reads memory into MBR and does nothing else, AC = ⊥ included. -/
def Obligations.SubMxOnlyReadsMemory : Prop :=
  ∀ (x : Addr) (s : State),
    decode (joinHalf 0x06 x) = .subMX x ∧
    (s.mar < s.mem.size → exec (.subMX x) s = .next { s with mbr := some (s.mem.read s.mar) }) ∧
    (s.mem.size ≤ s.mar → exec (.subMX x) s = .next { s with status := .faulted (.addressOutOfRange s.mar) })

/-- R140: every other opcode writes nothing and faults never, whatever its address field holds. The second clause also
holds of the ill-formed terms, an OTHER that carries one of the six opcodes: that those mean OTHER is the model's choice
(log entry 7), no rule of the spec. -/
def Obligations.OtherOpcodesChangeNothing : Prop :=
  ∀ (op : Opcode) (x : Addr) (s : State),
    (op ≠ 0x01 → op ≠ 0x06 → op ≠ 0x07 → op ≠ 0x09 → op ≠ 0x0A → op ≠ 0x21 → decode (joinHalf op x) = .other op x) ∧
    exec (.other op x) s = .next s

/-- The frame of the register-only instructions: LOAD M(X), LOAD MQ,M(X), LOAD MQ, ADD M(X), SUB M(X) and OTHER. Every word
of memory reads as before, PC, MAR, IR, IBR and phase stay; MBR, AC and MQ stay unless the instruction's rule writes them;
the status stays or a fault is taken. -/
def Obligations.RegisterInstructionsLeaveTheRestAlone : Prop :=
  ∀ (i : Instr) (s t : State), (∀ x, i ≠ .storMX x) → exec i s = .next t →
    t.mem = s.mem ∧ (∀ a, t.mem.read a = s.mem.read a) ∧
    t.pc = s.pc ∧ t.mar = s.mar ∧ t.ir = s.ir ∧ t.ibr = s.ibr ∧ t.phase = s.phase ∧
    ((∀ x, i ≠ .loadMX x) → (∀ x, i ≠ .loadMq x) → (∀ x, i ≠ .addMX x) → t.ac = s.ac) ∧
    ((∀ x, i ≠ .loadMqMX x) → t.mq = s.mq) ∧
    ((∀ x, i ≠ .loadMX x) → (∀ x, i ≠ .loadMqMX x) → (∀ x, i ≠ .addMX x) → (∀ x, i ≠ .subMX x) → t.mbr = s.mbr) ∧
    (t.status = s.status ∨ ∃ f, t.status = .faulted f)

/-- The frame of STOR M(X): every word but M[MAR] reads as before, and no register changes; the status stays or a fault is
taken. -/
def Obligations.StorLeavesTheRestAlone : Prop :=
  ∀ (x : Addr) (s t : State), exec (.storMX x) s = .next t →
    (∀ a, a ≠ s.mar → t.mem.read a = s.mem.read a) ∧ t.mem.size = s.mem.size ∧
    t.pc = s.pc ∧ t.mar = s.mar ∧ t.mbr = s.mbr ∧ t.ir = s.ir ∧ t.ibr = s.ibr ∧ t.ac = s.ac ∧ t.mq = s.mq ∧
    t.phase = s.phase ∧ (t.status = s.status ∨ ∃ f, t.status = .faulted f)

/-- R57 and R51 (marked derived by the spec): LOAD MQ and OTHER perform no access, so what memory holds and how long it is
makes no difference to them. -/
def Obligations.LoadMqAndOtherDoNotReachMemory : Prop :=
  ∀ (i : Instr) (s : State) (m : Memory), accessesMemory i = false →
    ∃ t, exec i s = .next t ∧ exec i (s.setMem m) = .next (t.setMem m)

/-- R131 and R132, R133 (decisions D5, D22): the two primitives of the arithmetic unit agree, are commutative, are exact
below 2^40, and raise Overflow exactly when bit 40 of the 41-bit sum is set. -/
def Obligations.ArithmeticUnitIsExactOrOverflows : Prop :=
  ∀ a b : Word,
    addAbsolute a b = addAbsolute b a ∧ addAbsolute a b = addDirect a b ∧
    ((BitVec.ofNat 41 (a.toNat + b.toNat)).getLsbD 40 = false →
      ∃ v, addAbsolute a b = .ok v ∧ v.toNat = a.toNat + b.toNat) ∧
    ((BitVec.ofNat 41 (a.toNat + b.toNat)).getLsbD 40 = true →
      addAbsolute a b = .error (.overflow (a.toNat + b.toNat)) ∧ 2 ^ 40 ≤ a.toNat + b.toNat)

/-- "LOAD then STOR to the same address is idempotent", at the level R123 and conflict C4 keep it: the two bodies with the
same MAR and no fetch between them. The premise is the memory's canonical form. -/
def Obligations.LoadThenStorWithNoFetchBetweenKeepsMemory : Prop :=
  ∀ (x y : Addr) (s : State), s.mem.wf = true → s.mar < s.mem.size →
    ∃ t u, exec (.loadMX x) s = .next t ∧ exec (.storMX y) t = .next u ∧ u.mem = s.mem ∧ u.ac = some (s.mem.read s.mar)

/-! ### Faults (spec/60_exceptions.md) -/

/-- R156 (marked derived) with R153 to R155 and the order of R159 (decision D7): which instruction takes which fault, with
which info, from a RUNNING state; no instruction takes MalformedWord. -/
def Obligations.EachInstructionTakesExactlyItsFaults : Prop :=
  ∀ (i : Instr) (s t : State), s.status = .running → exec i s = .next t →
    (∀ k, t.status ≠ .faulted (.malformedWord k)) ∧
    (∀ a, t.status = .faulted (.addressOutOfRange a) ↔ a = s.mar ∧ s.mem.size ≤ s.mar ∧ accessesMemory i = true) ∧
    (∀ r, t.status = .faulted (.uninitializedRegister r) ↔ s.mar < s.mem.size ∧
      ((r = .ac ∧ s.ac = none ∧ ∃ x, i = .addMX x) ∨ (r = .mbr ∧ s.mbr = none ∧ ∃ x, i = .storMX x))) ∧
    (∀ n, t.status = .faulted (.overflow n) ↔ s.mar < s.mem.size ∧ (∃ x, i = .addMX x) ∧ 2 ^ 40 ≤ n ∧
      ∃ a, s.ac = some a ∧ n = a.toNat + (s.mem.read s.mar).toNat)

/-- R157 (stickiness: decision D17): a step that takes a fault leaves the phase that faulted, and no later step is performed. -/
def Obligations.ATakenFaultKeepsThePhaseAndIsSticky : Prop :=
  ∀ (s t : State) (f : RunFault), step s = .next t → t.status = .faulted f →
    t.phase = s.phase ∧ step t = .fault (.runFaulted f) ∧ ∀ k, runFor k t = t

/-! ### The whole machine -/

/-- R21: no register returns to ⊥, but for AC in a LOAD MQ with MQ = ⊥ (decision D8). -/
def Obligations.NoRegisterReturnsToUninitializedButAcByLoadMq : Prop :=
  ∀ s t : State, step s = .next t →
    (s.mbr ≠ none → t.mbr ≠ none) ∧ (s.ir ≠ none → t.ir ≠ none) ∧ (s.ibr ≠ none → t.ibr ≠ none) ∧ (s.mq ≠ none → t.mq ≠ none) ∧
    (s.ac ≠ none → t.ac = none → InExecute s ∧ s.ir = some 0x0A ∧ s.mq = none)

/-- R123 and R185 (marked derived), one step: AC and MQ reach neither memory nor any register but AC and MQ. Two states
that differ in AC and MQ alone step to the same memory, PC, MAR, MBR, IR and IBR, and to the same phase and status unless
one of the two took a fault, after which it has no further step. -/
def Obligations.AccumulatorAndMqNeverReachMemory : Prop :=
  ∀ (s t t' : State) (a q : Option Word), step s = .next t → step ((s.setAc a).setMq q) = .next t' →
    t'.mem = t.mem ∧ t'.pc = t.pc ∧ t'.mar = t.mar ∧ t'.mbr = t.mbr ∧ t'.ir = t.ir ∧ t'.ibr = t.ibr ∧
    ((t'.phase = t.phase ∧ t'.status = t.status) ∨ (∃ f, t.status = .faulted f) ∨ ∃ f, t'.status = .faulted f)

/-- R33: "Its length never changes during a run"; and every step keeps the canonical form (the model's, log entry 2), from
every state whose memory has it. -/
def Obligations.StepKeepsMemoryCanonicalAndItsLength : Prop :=
  ∀ s t : State, s.mem.wf = true → step s = .next t → t.mem.wf = true ∧ t.mem.size = s.mem.size

/-- The invariant of a driven run holds at reset, for every image of at most 4096 words, and at `State.reset`. -/
def Obligations.DrivenRunInvariantHoldsAtReset : Prop :=
  (∀ image : List Word, image.length ≤ 4096 → Inv (State.resetFor image)) ∧ Inv State.reset

/-- R34, R35, R107, R111 (a) and R158, which the spec marks as derived: every step keeps the invariant of a driven run, into
DONE and into FAULTED as well. -/
def Obligations.DrivenRunInvariantIsKeptByEveryStep : Prop :=
  ∀ s t : State, Inv s → step s = .next t → Inv t

/-- R107 and R123 (marked derived): in a driven run a STOR M(X), left or right, stores the whole word that contains it, and
changes no other word and no register; the phase advances and no fault is taken. -/
def Obligations.StorInADrivenRunStoresItsOwnWord : Prop :=
  ∀ s : State, Inv s → s.status = .running → InExecute s → s.ir = some 0x21 → s.mar < s.mem.size →
    ∃ t, step s = .next t ∧ t.mem.read s.mar = s.mem.read (slotOf s) ∧ (∀ a, a ≠ s.mar → t.mem.read a = s.mem.read a) ∧
      t.mem.size = s.mem.size ∧ t.pc = s.pc ∧ t.mar = s.mar ∧ t.mbr = s.mbr ∧ t.ir = s.ir ∧ t.ibr = s.ibr ∧ t.ac = s.ac ∧
      t.mq = s.mq ∧ t.phase = s.phase.succ ∧ t.status = (if s.phase = .execRight ∧ s.pc = s.mem.size then .done else .running)

/-- R111 (a) (marked derived): in a driven run the second read of a slot finds the same right half, so IBR is rewritten with
its own value; (b) it reloads MBR with the instruction word. -/
def Obligations.RefetchRewritesIbrWithItsOwnValue : Prop :=
  ∀ s : State, Inv s → s.status = .running → s.phase = .fetchRight →
    ∃ t, step s = .next t ∧ t.ibr = s.ibr ∧ t.mbr = some (s.mem.read s.pc) ∧ t.pc = s.pc + 1 ∧ t.status = .running

/-- R153, R154 (marked derived): the only faults of a driven run are AddressOutOfRange in an execute phase, UninitializedRegister
of AC, and Overflow. -/
def Obligations.ADrivenRunTakesOnlyThreeFaults : Prop :=
  ∀ (s t : State) (f : RunFault), Inv s → step s = .next t → t.status = .faulted f →
    InExecute s ∧ (f = .addressOutOfRange s.mar ∨ f = .uninitializedRegister .ac ∨ ∃ n, f = .overflow n ∧ 2 ^ 40 ≤ n ∧ n ≤ 2 ^ 41 - 2)

/-- R109 and R193 (marked derived): every run ends; 4N phases are enough to reach DONE or FAULTED. -/
def Obligations.EveryRunEndsWithin4NPhases : Prop :=
  ∀ image : List Word, image.length ≤ 4096 →
    (run (State.resetFor image)).status = .done ∨ ∃ f, (run (State.resetFor image)).status = .faulted f

/-- R101 and R192 (marked derived): while a run is RUNNING, four phases belong to each completed slot, and a run that
reaches DONE has performed exactly 4N phases. -/
def Obligations.ARunReachesDoneAfterExactly4NPhases : Prop :=
  ∀ (image : List Word) (k : Nat) (t : State), image.length ≤ 4096 →
    Host.Core.run Sys2Proof.core k (State.resetFor image) = .next t →
    (t.status = .running → phasesDone t = k ∧ k < 4 * image.length) ∧ (t.status = .done → k = 4 * image.length ∧ t.pc = image.length)

/-- R82 and R101 (vector V39 for every inert image; marked derived): a memory of inert words runs to DONE with AC and MQ
still ⊥ and memory unchanged. -/
def Obligations.InertImagesRunToDoneUnchanged : Prop :=
  ∀ image : List Word, image.length ≤ 4096 → (∀ w ∈ image, inertWord w = true) →
    (run (State.resetFor image)).status = .done ∧ (run (State.resetFor image)).pc = image.length ∧
    (run (State.resetFor image)).ac = none ∧ (run (State.resetFor image)).mq = none ∧
    (run (State.resetFor image)).mem = (State.resetFor image).mem

/-! ### What the statements over runs iterate, one step at a time -/

/-- R101 and R109 (marked derived): a step of a driven run keeps its invariant and counts exactly one phase. RUNNING has one
phase more, and fewer than 4N; DONE is the phase number 4N; a fault leaves the count at the phase that took it. -/
def Obligations.EachStepOfADrivenRunCountsOnePhase : Prop :=
  ∀ s t : State, Inv s → step s = .next t →
    Inv t ∧ t.mem.size = s.mem.size ∧
    (t.status = .running → phasesDone t = phasesDone s + 1 ∧ phasesDone t < 4 * t.mem.size) ∧
    (t.status = .done → phasesDone t = phasesDone s + 1 ∧ phasesDone t = 4 * t.mem.size) ∧
    (∀ f, t.status = .faulted f → phasesDone t = phasesDone s)

/-- R82 (marked derived): a driven run over inert words only, fault-free with AC and MQ still ⊥, stays so at every step, and
no step changes memory. -/
def Obligations.InertRunInvariantIsKeptByEveryStep : Prop :=
  ∀ s t : State, InertInv s → step s = .next t → InertInv t ∧ t.mem = s.mem

/-- The invariant of an inert run holds at reset over every inert image, and at `State.reset`, whose image of zeros is the
model's choice (log entry 2). -/
def Obligations.InertRunInvariantHoldsAtReset : Prop :=
  (∀ image : List Word, image.length ≤ 4096 → (∀ w ∈ image, inertWord w = true) → InertInv (State.resetFor image)) ∧
  InertInv State.reset

/-- R123 and R185 (marked derived), any number of steps: two runs whose first states differ in AC and MQ alone have, as long
as both go on, the same memory, PC, MAR, MBR, IR and IBR, and the same phase and status unless a fault has stopped one. -/
def Obligations.AccumulatorAndMqNeverReachMemoryInAnyRun : Prop :=
  ∀ (k : Nat) (s t t' : State) (a q : Option Word), Host.Core.run Sys2Proof.core k s = .next t →
    Host.Core.run Sys2Proof.core k ((s.setAc a).setMq q) = .next t' →
    t'.mem = t.mem ∧ t'.pc = t.pc ∧ t'.mar = t.mar ∧ t'.mbr = t.mbr ∧ t'.ir = t.ir ∧ t'.ibr = t.ibr ∧
    ((t'.phase = t.phase ∧ t'.status = t.status) ∨ (∃ f, t.status = .faulted f) ∨ ∃ f, t'.status = .faulted f)
end

