-- ==== Sys2Proof/Laws/Codec.lean ====
section
/-! SUPPORT. The codec as arithmetic on naturals, and the round trips between a word or an instruction and its parts. -/

namespace Sys2Proof

theorem opcodeOf_toNat (ins : Half) : (opcodeOf ins).toNat = ins.toNat / 2 ^ 12 := by
  have := ins.isLt
  simp only [opcodeOf, BitVec.extractLsb'_toNat, Nat.shiftRight_eq_div_pow]
  omega

theorem addressOf_toNat (ins : Half) : (addressOf ins).toNat = ins.toNat % 2 ^ 12 := by
  simp [addressOf]

theorem leftOf_toNat (w : Word) : (leftOf w).toNat = w.toNat / 2 ^ 20 := by
  have := w.isLt
  simp only [leftOf, BitVec.extractLsb'_toNat, Nat.shiftRight_eq_div_pow]
  omega

theorem rightOf_toNat (w : Word) : (rightOf w).toNat = w.toNat % 2 ^ 20 := by
  simp [rightOf]

theorem joinHalf_toNat (op : Opcode) (x : Addr) : (joinHalf op x).toNat = op.toNat * 2 ^ 12 + x.toNat := by
  rw [joinHalf, BitVec.toNat_append, ← Nat.shiftLeft_add_eq_or_of_lt x.isLt, Nat.shiftLeft_eq]

theorem joinWord_toNat (l r : Half) : (joinWord l r).toNat = l.toNat * 2 ^ 20 + r.toNat := by
  rw [joinWord, BitVec.toNat_append, ← Nat.shiftLeft_add_eq_or_of_lt r.isLt, Nat.shiftLeft_eq]

@[simp] theorem opcodeOf_joinHalf (op : Opcode) (x : Addr) : opcodeOf (joinHalf op x) = op := by
  apply BitVec.eq_of_toNat_eq
  rw [opcodeOf_toNat, joinHalf_toNat]
  omega

@[simp] theorem addressOf_joinHalf (op : Opcode) (x : Addr) : addressOf (joinHalf op x) = x := by
  apply BitVec.eq_of_toNat_eq
  rw [addressOf_toNat, joinHalf_toNat]
  omega

@[simp] theorem leftOf_joinWord (l r : Half) : leftOf (joinWord l r) = l := by
  apply BitVec.eq_of_toNat_eq
  rw [leftOf_toNat, joinWord_toNat]
  omega

@[simp] theorem rightOf_joinWord (l r : Half) : rightOf (joinWord l r) = r := by
  apply BitVec.eq_of_toNat_eq
  rw [rightOf_toNat, joinWord_toNat]
  omega

end Sys2Proof
end

