-- ==== Sys2Proof/Laws/Memory.lean ====
section
/-! SUPPORT. The laws of main memory: a write is read back, leaves every other word alone and keeps the canonical form;
an image is stored as given; canonical memories are determined by what they read as. -/

namespace Sys2Proof.Machine

theorem lookup_erase_same (a : Nat) (l : List Cell) : lookupCell a (eraseCell a l) = unlistedWord := by
  induction l with
  | nil => rfl
  | cons c l ih => obtain ⟨k, v⟩ := c; by_cases h : a = k <;> simp [eraseCell, lookupCell, h]; all_goals (first | exact h ▸ ih | exact ih)

theorem lookup_erase_other {a b : Nat} (h : b ≠ a) (l : List Cell) : lookupCell b (eraseCell a l) = lookupCell b l := by
  induction l with
  | nil => rfl
  | cons c l ih =>
    obtain ⟨k, v⟩ := c
    by_cases hk : a = k
    · subst hk; simp [eraseCell, lookupCell, h, ih]
    · simp [eraseCell, lookupCell, hk, ih]

theorem lookup_insert_other {a b : Nat} (h : b ≠ a) (v : Word) (l : List Cell) :
    lookupCell b (insertCell a v l) = lookupCell b l := by
  induction l with
  | nil => simp [insertCell, lookupCell, h]
  | cons c l ih =>
    obtain ⟨k, w⟩ := c
    by_cases hk : a < k <;> simp [insertCell, lookupCell, hk, h, ih]

theorem lookup_insert_erased (a : Nat) (v : Word) (l : List Cell) :
    lookupCell a (insertCell a v (eraseCell a l)) = v := by
  induction l with
  | nil => simp [eraseCell, insertCell, lookupCell]
  | cons c l ih =>
    obtain ⟨k, w⟩ := c
    by_cases hk : a = k
    · simpa [eraseCell, hk] using hk ▸ ih
    · by_cases hl : a < k <;> simp [eraseCell, insertCell, lookupCell, hk, hl, ih]

@[simp] theorem Memory.write_size (m : Memory) (a : Nat) (v : Word) : (m.write a v).size = m.size := rfl

/-- A word written is read back. -/
@[simp] theorem Memory.read_write_same (m : Memory) (a : Nat) (v : Word) : (m.write a v).read a = v := by
  by_cases h : v = unlistedWord
  · simp [Memory.write, Memory.read, h, lookup_erase_same]
  · simp [Memory.write, Memory.read, h, lookup_insert_erased]

/-- A write leaves every other word alone. -/
theorem Memory.read_write_other (m : Memory) {a b : Nat} (h : b ≠ a) (v : Word) : (m.write a v).read b = m.read b := by
  by_cases hv : v = unlistedWord
  · simp [Memory.write, Memory.read, hv, lookup_erase_other h]
  · simp [Memory.write, Memory.read, hv, lookup_insert_other h, lookup_erase_other h]

theorem canonicalCells_mono {lo lo' n : Nat} (h : lo ≤ lo') (l : List Cell) (hl : canonicalCells lo' n l = true) :
    canonicalCells lo n l = true := by
  cases l with
  | nil => rfl
  | cons c l => simp only [canonicalCells, Bool.and_eq_true, decide_eq_true_eq] at hl ⊢; exact ⟨⟨⟨by omega, hl.1.1.2⟩, hl.1.2⟩, hl.2⟩

theorem canonicalCells_erase (a : Nat) {lo n : Nat} (l : List Cell) (h : canonicalCells lo n l = true) :
    canonicalCells lo n (eraseCell a l) = true := by
  induction l generalizing lo with
  | nil => rfl
  | cons c l ih =>
    obtain ⟨k, v⟩ := c
    simp only [canonicalCells, Bool.and_eq_true, decide_eq_true_eq] at h
    by_cases hk : a = k
    · simp only [eraseCell, hk, if_true]
      exact canonicalCells_mono (by omega) _ (hk ▸ ih h.2)
    · simp only [eraseCell, hk, if_false, canonicalCells, Bool.and_eq_true, decide_eq_true_eq]
      exact ⟨h.1, ih h.2⟩

theorem canonicalCells_insert {a lo n : Nat} {v : Word} (hv : v ≠ unlistedWord) (hlo : lo ≤ a) (hn : a < n) (l : List Cell)
    (h : canonicalCells lo n (eraseCell a l) = true) : canonicalCells lo n (insertCell a v (eraseCell a l)) = true := by
  induction l generalizing lo with
  | nil => simp [eraseCell, insertCell, canonicalCells, hlo, hn, hv]
  | cons c l ih =>
    obtain ⟨k, w⟩ := c
    by_cases hk : a = k
    · simp only [eraseCell, hk, if_true] at h ⊢; exact hk ▸ ih hlo (hk ▸ h)
    · simp only [eraseCell, hk, if_false, canonicalCells, Bool.and_eq_true, decide_eq_true_eq] at h
      by_cases hl : a < k
      · simp only [eraseCell, hk, if_false, insertCell, hl, if_true, canonicalCells, Bool.and_eq_true, decide_eq_true_eq]
        exact ⟨⟨⟨hlo, hn⟩, by simp [hv]⟩, ⟨⟨hl, h.1.1.2⟩, h.1.2⟩, h.2⟩
      · simp only [eraseCell, hk, if_false, insertCell, hl, canonicalCells, Bool.and_eq_true, decide_eq_true_eq]
        exact ⟨h.1, ih (by omega) h.2⟩

/-- A write below `N` keeps the canonical form. -/
theorem Memory.wf_write {m : Memory} {a : Nat} (v : Word) (ha : a < m.size) (h : m.wf = true) : (m.write a v).wf = true := by
  simp only [Memory.wf, Bool.and_eq_true, decide_eq_true_eq] at h ⊢
  refine ⟨h.1, ?_⟩
  have he := canonicalCells_erase a m.cells h.2
  by_cases hv : v = unlistedWord
  · simpa [Memory.write, hv] using he
  · simpa [Memory.write, hv] using canonicalCells_insert hv (Nat.zero_le a) ha m.cells he

theorem lookup_image_below {a k : Nat} (h : a < k) (l : List Word) : lookupCell a (imageCells k l) = unlistedWord := by
  induction l generalizing k with
  | nil => rfl
  | cons v l ih =>
    by_cases hv : v = unlistedWord
    · simpa [imageCells, hv] using ih (by omega)
    · have : a ≠ k := by omega
      simpa [imageCells, hv, lookupCell, this] using ih (by omega)

theorem lookup_image (k a : Nat) (l : List Word) (h : a < l.length) : lookupCell (k + a) (imageCells k l) = l[a] := by
  induction l generalizing k a with
  | nil => simp at h
  | cons v l ih =>
    cases a with
    | zero =>
      by_cases hv : v = unlistedWord
      · simp [imageCells, hv, lookup_image_below]
      · simp [imageCells, hv, lookupCell]
    | succ a =>
      have hk : k + (a + 1) ≠ k := by omega
      have := ih (k + 1) a (by simpa using h)
      rw [show k + 1 + a = k + (a + 1) by omega] at this
      by_cases hv : v = unlistedWord <;> simp [imageCells, hv, lookupCell, this]

/-- `M[a] = IMAGE[a]`. -/
theorem Memory.read_ofImage (image : List Word) {a : Nat} (h : a < image.length) :
    (Memory.ofImage image).read a = image[a] := by
  simpa [Memory.ofImage, Memory.read] using lookup_image 0 a image h

theorem canonicalCells_image (k : Nat) (l : List Word) : canonicalCells k (k + l.length) (imageCells k l) = true := by
  induction l generalizing k with
  | nil => rfl
  | cons v l ih =>
    have := ih (k + 1)
    rw [show k + 1 + l.length = k + (l.length + 1) by omega] at this
    by_cases hv : v = unlistedWord
    · simpa [imageCells, hv] using canonicalCells_mono (by omega) _ this
    · simp [imageCells, hv, canonicalCells, this]

/-- An image of at most 4096 words is stored in canonical form. -/
theorem Memory.wf_ofImage {image : List Word} (h : image.length ≤ Config.maxWords) : (Memory.ofImage image).wf = true := by
  have := canonicalCells_image 0 image
  simp only [Nat.zero_add] at this
  simp [Memory.wf, Memory.ofImage, h, this]

end Sys2Proof.Machine
end

