-- ==== Sys2Proof/Laws/State.lean ====
section
/-! SUPPORT. One lemma for each field of the state under each register write (true by rfl). -/

namespace Sys2Proof.Machine

@[simp] theorem State.setPc_pc (s : State) (v : Nat) : (s.setPc v).pc = v := rfl
@[simp] theorem State.setPc_mar (s : State) (v : Nat) : (s.setPc v).mar = s.mar := rfl
@[simp] theorem State.setPc_mbr (s : State) (v : Nat) : (s.setPc v).mbr = s.mbr := rfl
@[simp] theorem State.setPc_ir (s : State) (v : Nat) : (s.setPc v).ir = s.ir := rfl
@[simp] theorem State.setPc_ibr (s : State) (v : Nat) : (s.setPc v).ibr = s.ibr := rfl
@[simp] theorem State.setPc_ac (s : State) (v : Nat) : (s.setPc v).ac = s.ac := rfl
@[simp] theorem State.setPc_mq (s : State) (v : Nat) : (s.setPc v).mq = s.mq := rfl
@[simp] theorem State.setPc_mem (s : State) (v : Nat) : (s.setPc v).mem = s.mem := rfl
@[simp] theorem State.setPc_phase (s : State) (v : Nat) : (s.setPc v).phase = s.phase := rfl
@[simp] theorem State.setPc_status (s : State) (v : Nat) : (s.setPc v).status = s.status := rfl

@[simp] theorem State.setMar_pc (s : State) (v : Nat) : (s.setMar v).pc = s.pc := rfl
@[simp] theorem State.setMar_mar (s : State) (v : Nat) : (s.setMar v).mar = v := rfl
@[simp] theorem State.setMar_mbr (s : State) (v : Nat) : (s.setMar v).mbr = s.mbr := rfl
@[simp] theorem State.setMar_ir (s : State) (v : Nat) : (s.setMar v).ir = s.ir := rfl
@[simp] theorem State.setMar_ibr (s : State) (v : Nat) : (s.setMar v).ibr = s.ibr := rfl
@[simp] theorem State.setMar_ac (s : State) (v : Nat) : (s.setMar v).ac = s.ac := rfl
@[simp] theorem State.setMar_mq (s : State) (v : Nat) : (s.setMar v).mq = s.mq := rfl
@[simp] theorem State.setMar_mem (s : State) (v : Nat) : (s.setMar v).mem = s.mem := rfl
@[simp] theorem State.setMar_phase (s : State) (v : Nat) : (s.setMar v).phase = s.phase := rfl
@[simp] theorem State.setMar_status (s : State) (v : Nat) : (s.setMar v).status = s.status := rfl

@[simp] theorem State.setMbr_pc (s : State) (v : Word) : (s.setMbr v).pc = s.pc := rfl
@[simp] theorem State.setMbr_mar (s : State) (v : Word) : (s.setMbr v).mar = s.mar := rfl
@[simp] theorem State.setMbr_mbr (s : State) (v : Word) : (s.setMbr v).mbr = some v := rfl
@[simp] theorem State.setMbr_ir (s : State) (v : Word) : (s.setMbr v).ir = s.ir := rfl
@[simp] theorem State.setMbr_ibr (s : State) (v : Word) : (s.setMbr v).ibr = s.ibr := rfl
@[simp] theorem State.setMbr_ac (s : State) (v : Word) : (s.setMbr v).ac = s.ac := rfl
@[simp] theorem State.setMbr_mq (s : State) (v : Word) : (s.setMbr v).mq = s.mq := rfl
@[simp] theorem State.setMbr_mem (s : State) (v : Word) : (s.setMbr v).mem = s.mem := rfl
@[simp] theorem State.setMbr_phase (s : State) (v : Word) : (s.setMbr v).phase = s.phase := rfl
@[simp] theorem State.setMbr_status (s : State) (v : Word) : (s.setMbr v).status = s.status := rfl

@[simp] theorem State.setIr_pc (s : State) (v : Opcode) : (s.setIr v).pc = s.pc := rfl
@[simp] theorem State.setIr_mar (s : State) (v : Opcode) : (s.setIr v).mar = s.mar := rfl
@[simp] theorem State.setIr_mbr (s : State) (v : Opcode) : (s.setIr v).mbr = s.mbr := rfl
@[simp] theorem State.setIr_ir (s : State) (v : Opcode) : (s.setIr v).ir = some v := rfl
@[simp] theorem State.setIr_ibr (s : State) (v : Opcode) : (s.setIr v).ibr = s.ibr := rfl
@[simp] theorem State.setIr_ac (s : State) (v : Opcode) : (s.setIr v).ac = s.ac := rfl
@[simp] theorem State.setIr_mq (s : State) (v : Opcode) : (s.setIr v).mq = s.mq := rfl
@[simp] theorem State.setIr_mem (s : State) (v : Opcode) : (s.setIr v).mem = s.mem := rfl
@[simp] theorem State.setIr_phase (s : State) (v : Opcode) : (s.setIr v).phase = s.phase := rfl
@[simp] theorem State.setIr_status (s : State) (v : Opcode) : (s.setIr v).status = s.status := rfl

@[simp] theorem State.setIbr_pc (s : State) (v : Half) : (s.setIbr v).pc = s.pc := rfl
@[simp] theorem State.setIbr_mar (s : State) (v : Half) : (s.setIbr v).mar = s.mar := rfl
@[simp] theorem State.setIbr_mbr (s : State) (v : Half) : (s.setIbr v).mbr = s.mbr := rfl
@[simp] theorem State.setIbr_ir (s : State) (v : Half) : (s.setIbr v).ir = s.ir := rfl
@[simp] theorem State.setIbr_ibr (s : State) (v : Half) : (s.setIbr v).ibr = some v := rfl
@[simp] theorem State.setIbr_ac (s : State) (v : Half) : (s.setIbr v).ac = s.ac := rfl
@[simp] theorem State.setIbr_mq (s : State) (v : Half) : (s.setIbr v).mq = s.mq := rfl
@[simp] theorem State.setIbr_mem (s : State) (v : Half) : (s.setIbr v).mem = s.mem := rfl
@[simp] theorem State.setIbr_phase (s : State) (v : Half) : (s.setIbr v).phase = s.phase := rfl
@[simp] theorem State.setIbr_status (s : State) (v : Half) : (s.setIbr v).status = s.status := rfl

@[simp] theorem State.setAc_pc (s : State) (v : Option Word) : (s.setAc v).pc = s.pc := rfl
@[simp] theorem State.setAc_mar (s : State) (v : Option Word) : (s.setAc v).mar = s.mar := rfl
@[simp] theorem State.setAc_mbr (s : State) (v : Option Word) : (s.setAc v).mbr = s.mbr := rfl
@[simp] theorem State.setAc_ir (s : State) (v : Option Word) : (s.setAc v).ir = s.ir := rfl
@[simp] theorem State.setAc_ibr (s : State) (v : Option Word) : (s.setAc v).ibr = s.ibr := rfl
@[simp] theorem State.setAc_ac (s : State) (v : Option Word) : (s.setAc v).ac = v := rfl
@[simp] theorem State.setAc_mq (s : State) (v : Option Word) : (s.setAc v).mq = s.mq := rfl
@[simp] theorem State.setAc_mem (s : State) (v : Option Word) : (s.setAc v).mem = s.mem := rfl
@[simp] theorem State.setAc_phase (s : State) (v : Option Word) : (s.setAc v).phase = s.phase := rfl
@[simp] theorem State.setAc_status (s : State) (v : Option Word) : (s.setAc v).status = s.status := rfl

@[simp] theorem State.setMq_pc (s : State) (v : Option Word) : (s.setMq v).pc = s.pc := rfl
@[simp] theorem State.setMq_mar (s : State) (v : Option Word) : (s.setMq v).mar = s.mar := rfl
@[simp] theorem State.setMq_mbr (s : State) (v : Option Word) : (s.setMq v).mbr = s.mbr := rfl
@[simp] theorem State.setMq_ir (s : State) (v : Option Word) : (s.setMq v).ir = s.ir := rfl
@[simp] theorem State.setMq_ibr (s : State) (v : Option Word) : (s.setMq v).ibr = s.ibr := rfl
@[simp] theorem State.setMq_ac (s : State) (v : Option Word) : (s.setMq v).ac = s.ac := rfl
@[simp] theorem State.setMq_mq (s : State) (v : Option Word) : (s.setMq v).mq = v := rfl
@[simp] theorem State.setMq_mem (s : State) (v : Option Word) : (s.setMq v).mem = s.mem := rfl
@[simp] theorem State.setMq_phase (s : State) (v : Option Word) : (s.setMq v).phase = s.phase := rfl
@[simp] theorem State.setMq_status (s : State) (v : Option Word) : (s.setMq v).status = s.status := rfl

@[simp] theorem State.setMem_pc (s : State) (v : Memory) : (s.setMem v).pc = s.pc := rfl
@[simp] theorem State.setMem_mar (s : State) (v : Memory) : (s.setMem v).mar = s.mar := rfl
@[simp] theorem State.setMem_mbr (s : State) (v : Memory) : (s.setMem v).mbr = s.mbr := rfl
@[simp] theorem State.setMem_ir (s : State) (v : Memory) : (s.setMem v).ir = s.ir := rfl
@[simp] theorem State.setMem_ibr (s : State) (v : Memory) : (s.setMem v).ibr = s.ibr := rfl
@[simp] theorem State.setMem_ac (s : State) (v : Memory) : (s.setMem v).ac = s.ac := rfl
@[simp] theorem State.setMem_mq (s : State) (v : Memory) : (s.setMem v).mq = s.mq := rfl
@[simp] theorem State.setMem_mem (s : State) (v : Memory) : (s.setMem v).mem = v := rfl
@[simp] theorem State.setMem_phase (s : State) (v : Memory) : (s.setMem v).phase = s.phase := rfl
@[simp] theorem State.setMem_status (s : State) (v : Memory) : (s.setMem v).status = s.status := rfl

@[simp] theorem State.setPhase_pc (s : State) (v : Phase) : (s.setPhase v).pc = s.pc := rfl
@[simp] theorem State.setPhase_mar (s : State) (v : Phase) : (s.setPhase v).mar = s.mar := rfl
@[simp] theorem State.setPhase_mbr (s : State) (v : Phase) : (s.setPhase v).mbr = s.mbr := rfl
@[simp] theorem State.setPhase_ir (s : State) (v : Phase) : (s.setPhase v).ir = s.ir := rfl
@[simp] theorem State.setPhase_ibr (s : State) (v : Phase) : (s.setPhase v).ibr = s.ibr := rfl
@[simp] theorem State.setPhase_ac (s : State) (v : Phase) : (s.setPhase v).ac = s.ac := rfl
@[simp] theorem State.setPhase_mq (s : State) (v : Phase) : (s.setPhase v).mq = s.mq := rfl
@[simp] theorem State.setPhase_mem (s : State) (v : Phase) : (s.setPhase v).mem = s.mem := rfl
@[simp] theorem State.setPhase_phase (s : State) (v : Phase) : (s.setPhase v).phase = v := rfl
@[simp] theorem State.setPhase_status (s : State) (v : Phase) : (s.setPhase v).status = s.status := rfl

@[simp] theorem State.setStatus_pc (s : State) (v : Status) : (s.setStatus v).pc = s.pc := rfl
@[simp] theorem State.setStatus_mar (s : State) (v : Status) : (s.setStatus v).mar = s.mar := rfl
@[simp] theorem State.setStatus_mbr (s : State) (v : Status) : (s.setStatus v).mbr = s.mbr := rfl
@[simp] theorem State.setStatus_ir (s : State) (v : Status) : (s.setStatus v).ir = s.ir := rfl
@[simp] theorem State.setStatus_ibr (s : State) (v : Status) : (s.setStatus v).ibr = s.ibr := rfl
@[simp] theorem State.setStatus_ac (s : State) (v : Status) : (s.setStatus v).ac = s.ac := rfl
@[simp] theorem State.setStatus_mq (s : State) (v : Status) : (s.setStatus v).mq = s.mq := rfl
@[simp] theorem State.setStatus_mem (s : State) (v : Status) : (s.setStatus v).mem = s.mem := rfl
@[simp] theorem State.setStatus_phase (s : State) (v : Status) : (s.setStatus v).phase = s.phase := rfl
@[simp] theorem State.setStatus_status (s : State) (v : Status) : (s.setStatus v).status = v := rfl

@[simp] theorem State.takeFault_pc (s : State) (f : RunFault) : (s.takeFault f).pc = s.pc := rfl
@[simp] theorem State.takeFault_mar (s : State) (f : RunFault) : (s.takeFault f).mar = s.mar := rfl
@[simp] theorem State.takeFault_mbr (s : State) (f : RunFault) : (s.takeFault f).mbr = s.mbr := rfl
@[simp] theorem State.takeFault_ir (s : State) (f : RunFault) : (s.takeFault f).ir = s.ir := rfl
@[simp] theorem State.takeFault_ibr (s : State) (f : RunFault) : (s.takeFault f).ibr = s.ibr := rfl
@[simp] theorem State.takeFault_ac (s : State) (f : RunFault) : (s.takeFault f).ac = s.ac := rfl
@[simp] theorem State.takeFault_mq (s : State) (f : RunFault) : (s.takeFault f).mq = s.mq := rfl
@[simp] theorem State.takeFault_mem (s : State) (f : RunFault) : (s.takeFault f).mem = s.mem := rfl
@[simp] theorem State.takeFault_phase (s : State) (f : RunFault) : (s.takeFault f).phase = s.phase := rfl
@[simp] theorem State.takeFault_status (s : State) (f : RunFault) : (s.takeFault f).status = .faulted f := rfl

end Sys2Proof.Machine
end

