-- ==== Sys2Proof/Laws/Ops.lean ====
section
/-! SUPPORT. What each shared operation can do, said once. -/

namespace Sys2Proof.Machine

/-! ### `raise` -/

@[simp] theorem Res.outcome_done (s : State) : (Res.done s).outcome = .next s := rfl

@[simp] theorem Res.outcome_raised (f : RunFault) (s : State) : (Res.raised f s).outcome = .next (s.takeFault f) := rfl

/-- The operation of a phase always answers a next state: a raised fault is taken. -/
theorem Res.outcome_cases (r : Res) :
    (∃ s, r = .done s ∧ r.outcome = .next s) ∨ (∃ f s, r = .raised f s ∧ r.outcome = .next (s.takeFault f)) := by
  cases r with
  | done s => exact .inl ⟨s, rfl, rfl⟩
  | raised f s => exact .inr ⟨f, s, rfl, rfl⟩

/-! ### Memory -/

theorem memRead_of_lt {m : Memory} {a : Nat} (h : a < m.size) : memRead m a = .ok (m.read a) := by
  simp [memRead, Nat.not_le.mpr h]

theorem memRead_of_le {m : Memory} {a : Nat} (h : m.size ≤ a) : memRead m a = .error (.addressOutOfRange a) := by
  simp [memRead, h]

theorem memWrite_of_lt {m : Memory} {a : Nat} (h : a < m.size) (v : Word) : memWrite m a v = .ok (m.write a v) := by
  simp [memWrite, Nat.not_le.mpr h]

theorem memWrite_of_le {m : Memory} {a : Nat} (h : m.size ≤ a) (v : Word) :
    memWrite m a v = .error (.addressOutOfRange a) := by
  simp [memWrite, h]

theorem readMemoryThen_of_lt {s : State} (h : s.mar < s.mem.size) (k : Word → State → Res) :
    readMemoryThen s k = k (s.mem.read s.mar) (s.setMbr (s.mem.read s.mar)) := by
  simp [readMemoryThen, memRead_of_lt h]

theorem readMemoryThen_of_le {s : State} (h : s.mem.size ≤ s.mar) (k : Word → State → Res) :
    readMemoryThen s k = .raised (.addressOutOfRange s.mar) s := by
  simp [readMemoryThen, memRead_of_le h]

/-- Everything a staged read can do. -/
theorem readMemoryThen_cases (s : State) (k : Word → State → Res) :
    (s.mar < s.mem.size ∧ readMemoryThen s k = k (s.mem.read s.mar) (s.setMbr (s.mem.read s.mar))) ∨
    (s.mem.size ≤ s.mar ∧ readMemoryThen s k = .raised (.addressOutOfRange s.mar) s) := by
  rcases Nat.lt_or_ge s.mar s.mem.size with h | h
  · exact .inl ⟨h, readMemoryThen_of_lt h k⟩
  · exact .inr ⟨h, readMemoryThen_of_le h k⟩

/-- Everything a staged write can do. -/
theorem writeMemory_cases (s : State) :
    (∃ w, s.mar < s.mem.size ∧ s.mbr = some w ∧ writeMemory s = .done (s.setMem (s.mem.write s.mar w))) ∨
    (s.mar < s.mem.size ∧ s.mbr = none ∧ writeMemory s = .raised (.uninitializedRegister .mbr) s) ∨
    (s.mem.size ≤ s.mar ∧ writeMemory s = .raised (.addressOutOfRange s.mar) s) := by
  rcases Nat.lt_or_ge s.mar s.mem.size with h | h
  · cases hm : s.mbr with
    | none => exact .inr (.inl ⟨h, rfl, by simp [writeMemory, Nat.not_le.mpr h, hm]⟩)
    | some w => exact .inl ⟨w, h, rfl, by simp [writeMemory, Nat.not_le.mpr h, hm, memWrite_of_lt h]⟩
  · exact .inr (.inr ⟨h, by simp [writeMemory, h]⟩)

/-! ### The arithmetic unit -/

/-- Everything the bound of a result can do. -/
theorem boundResult_cases (n : Nat) :
    (n < 2 ^ 40 ∧ boundResult n = .ok (BitVec.ofNat 40 n)) ∨ (2 ^ 40 ≤ n ∧ boundResult n = .error (.overflow n)) := by
  rcases Nat.lt_or_ge n (2 ^ 40) with h | h
  · exact .inl ⟨h, if_neg (Nat.not_le.mpr h)⟩
  · exact .inr ⟨h, if_pos h⟩

/-- The absolute value of a sum of naturals is the sum. -/
theorem addAbsolute_eq (a b : Word) : addAbsolute a b = boundResult (a.toNat + b.toNat) := by
  have : ((a.toNat : Int) + (b.toNat : Int)).natAbs = a.toNat + b.toNat := by omega
  rw [addAbsolute, this]

/-- Everything the addition of ADD M(X) can do once its operand is in MBR. -/
theorem addOperand_cases (b : Word) (s : State) :
    (s.ac = none ∧ addOperand b s = .raised (.uninitializedRegister .ac) s) ∨
    (∃ a, s.ac = some a ∧ 2 ^ 40 ≤ a.toNat + b.toNat ∧ addOperand b s = .raised (.overflow (a.toNat + b.toNat)) s) ∨
    (∃ a, s.ac = some a ∧ a.toNat + b.toNat < 2 ^ 40 ∧
      addOperand b s = .done (s.setAc (some (BitVec.ofNat 40 (a.toNat + b.toNat))))) := by
  cases ha : s.ac with
  | none => exact .inl ⟨rfl, by simp [addOperand, ha]⟩
  | some a =>
    rcases boundResult_cases (a.toNat + b.toNat) with ⟨h, e⟩ | ⟨h, e⟩
    · exact .inr (.inr ⟨a, rfl, h, by simp [addOperand, ha, addAbsolute_eq, e]⟩)
    · exact .inr (.inl ⟨a, rfl, h, by simp [addOperand, ha, addAbsolute_eq, e]⟩)

/-! ### The fetch phases -/

theorem fetchLeft_of_lt {s : State} (h : s.pc < s.mem.size) : fetchLeft s = .done
    (((((s.setMar s.pc).setMbr (s.mem.read s.pc)).setIbr (rightOf (s.mem.read s.pc))).setIr
      (opcodeOf (leftOf (s.mem.read s.pc)))).setMar (addressValue (leftOf (s.mem.read s.pc)))) :=
  readMemoryThen_of_lt (s := s.setMar s.pc) h _

theorem fetchLeft_of_le {s : State} (h : s.mem.size ≤ s.pc) :
    fetchLeft s = .raised (.addressOutOfRange s.pc) (s.setMar s.pc) :=
  readMemoryThen_of_le (s := s.setMar s.pc) h _

theorem fetchRight_of_lt {s : State} (h : s.pc < s.mem.size) : fetchRight s = .done
    ((((((s.setMar s.pc).setMbr (s.mem.read s.pc)).setIbr (rightOf (s.mem.read s.pc))).setIr
      (opcodeOf (rightOf (s.mem.read s.pc)))).setMar (addressValue (rightOf (s.mem.read s.pc)))).setPc (s.pc + 1)) :=
  readMemoryThen_of_lt (s := s.setMar s.pc) h _

theorem fetchRight_of_le {s : State} (h : s.mem.size ≤ s.pc) :
    fetchRight s = .raised (.addressOutOfRange s.pc) (s.setMar s.pc) :=
  readMemoryThen_of_le (s := s.setMar s.pc) h _

/-! ### The sequencer -/

@[simp] theorem isRunning_iff (s : State) : s.isRunning = true ↔ s.status = .running := by simp [State.isRunning]

@[simp] theorem sequencer_next (s : State) : sequencer (.next s) = .next (if s.isRunning then advance s else s) := rfl

/-- What `advance` leaves: the phase, and the status at the end of a word cycle. -/
theorem advance_eq (s : State) : advance s =
    (s.setPhase s.phase.succ).setStatus (if s.phase = .execRight ∧ s.pc = s.mem.size then .done else s.status) := by
  unfold advance
  split <;> rfl

/-- Each arm of `exec` is its meaning. -/
theorem execute_some {s : State} {op : Opcode} (h : s.ir = some op) : execute s = exec (stagedInstr op s.mar) s := by
  simp [execute, h]

theorem step_running {s : State} (h : s.status = .running) : step s = sequencer (phaseOperation s) := by
  simp [step, stepOnce, h]

@[simp] theorem runFor_zero (s : State) : runFor 0 s = s := rfl

theorem runFor_next {s t : State} (h : step s = .next t) (k : Nat) : runFor (k + 1) s = runFor k t := by
  simp [runFor, h]

end Sys2Proof.Machine
end

