-- ==== Sys2Proof/Laws/PerInstr.lean ====
section
/-! SUPPORT. The family `Fields`: the two fields of an instruction's encoding are its opcode and its address. -/

/-- The encoding of an instruction has the opcode and the address of the instruction as its fields (spec/30_encoding.md R71). -/
def Sys2Proof.Laws.Fields.Statement (i : Sys2Proof.Instr) : Prop :=
  Sys2Proof.opcodeOf (Sys2Proof.encode i) = i.opcode ∧ Sys2Proof.addressOf (Sys2Proof.encode i) = i.address

theorem Sys2Proof.Laws.Fields.loadMX (x : Sys2Proof.Addr) : Sys2Proof.Laws.Fields.Statement (.loadMX x) :=
  ⟨Sys2Proof.opcodeOf_joinHalf _ _, Sys2Proof.addressOf_joinHalf _ _⟩

theorem Sys2Proof.Laws.Fields.loadMqMX (x : Sys2Proof.Addr) : Sys2Proof.Laws.Fields.Statement (.loadMqMX x) :=
  ⟨Sys2Proof.opcodeOf_joinHalf _ _, Sys2Proof.addressOf_joinHalf _ _⟩

theorem Sys2Proof.Laws.Fields.loadMq (x : Sys2Proof.Addr) : Sys2Proof.Laws.Fields.Statement (.loadMq x) :=
  ⟨Sys2Proof.opcodeOf_joinHalf _ _, Sys2Proof.addressOf_joinHalf _ _⟩

theorem Sys2Proof.Laws.Fields.storMX (x : Sys2Proof.Addr) : Sys2Proof.Laws.Fields.Statement (.storMX x) :=
  ⟨Sys2Proof.opcodeOf_joinHalf _ _, Sys2Proof.addressOf_joinHalf _ _⟩

theorem Sys2Proof.Laws.Fields.addMX (x : Sys2Proof.Addr) : Sys2Proof.Laws.Fields.Statement (.addMX x) :=
  ⟨Sys2Proof.opcodeOf_joinHalf _ _, Sys2Proof.addressOf_joinHalf _ _⟩

theorem Sys2Proof.Laws.Fields.subMX (x : Sys2Proof.Addr) : Sys2Proof.Laws.Fields.Statement (.subMX x) :=
  ⟨Sys2Proof.opcodeOf_joinHalf _ _, Sys2Proof.addressOf_joinHalf _ _⟩

theorem Sys2Proof.Laws.Fields.other (op : Sys2Proof.Opcode) (x : Sys2Proof.Addr) : Sys2Proof.Laws.Fields.Statement (.other op x) :=
  ⟨Sys2Proof.opcodeOf_joinHalf _ _, Sys2Proof.addressOf_joinHalf _ _⟩
end

