-- ==== Sys2Proof/Laws/Run.lean ====
section
/-! SUPPORT. The host's count of steps, one step at a time. -/

namespace Sys2Proof.Machine

/-- A run of `k + 1` steps is its first step and then a run of `k`. -/
theorem hostRun_succ_of_next (M : Host.Core) (k : Nat) {s u : M.State} (h : M.step s = .next u) :
    M.run (k + 1) s = M.run k u := by
  simp only [Host.Core.run, h]

/-- A run whose first step answers no next state answers none. -/
theorem hostRun_succ_ne_next (M : Host.Core) (k : Nat) {s : M.State} (h : ∀ u, M.step s ≠ .next u) (t : M.State) :
    M.run (k + 1) s ≠ .next t := by
  simp only [Host.Core.run]
  cases e : M.step s with
  | next u => exact absurd e (h u)
  | fault r => simp
  | refused r => simp

end Sys2Proof.Machine
end

