-- ==== Sys2Proof/Tests/Slice0.lean ====
section
/-! SUPPORT. The model's own tests. Expected values are those of spec/95_test_vectors.md (V<n>, S<n>, P<n>) or are worked
out by hand from the rule named; then a witness for the hypotheses of each statement. -/

namespace Sys2Proof.Tests

open Sys2Proof.Machine

/-! ### Helpers -/

/-- The next state an outcome answers. -/
def stateOf (o : Host.Outcome State Fault Refusal) : Option State :=
  match o with
  | .next s => some s
  | .fault _ => none
  | .refused _ => none

theorem next_of_stateOf {o : Host.Outcome State Fault Refusal} {t : State} (h : stateOf o = some t) : o = .next t := by
  cases o with
  | next s => simp only [stateOf, Option.some.injEq] at h; rw [h]
  | fault r => simp [stateOf] at h
  | refused r => simp [stateOf] at h

/-- A state over an image with the four fields an execute phase looks at. -/
def mk (image : List Word) (mar : Nat) (mbr ac mq : Option Word) : State :=
  { State.resetFor image with mar := mar, mbr := mbr, ac := ac, mq := mq }

/-- The source's sample memory (S6). -/
def sample : List Word := [0x0100207003, 0x2100207004, 0x0000000004, 0x0000000003]

/-- The memory of V10 to V13. -/
def fetchImage : List Word := [0x0000000000, 0x123456789A, 0x0000000000]

/-! ### WellFormed: the six ill-formed terms (R78, R140) -/

theorem test_wf_refuses_other_load : (Instr.other 0x01 0).wellFormed = false := by decide
theorem test_wf_refuses_other_load_mq_m : (Instr.other 0x09 0).wellFormed = false := by decide
theorem test_wf_refuses_other_load_mq : (Instr.other 0x0A 0xFFF).wellFormed = false := by decide
theorem test_wf_refuses_other_stor : (Instr.other 0x21 0).wellFormed = false := by decide
theorem test_wf_refuses_other_add : (Instr.other 0x07 3).wellFormed = false := by decide
theorem test_wf_refuses_other_sub : (Instr.other 0x06 0).wellFormed = false := by decide
theorem test_wf_takes_other_zero : (Instr.other 0x00 0).wellFormed = true := by decide

/-! ### Decoding, the words written digit by digit from the table of R78 -/

theorem test_decode_load : decode 0b00000001000000000010#20 = .loadMX 2 := by decide
theorem test_decode_load_mq_m : decode 0b00001001111111111111#20 = .loadMqMX 4095 := by decide
theorem test_decode_load_mq : decode 0b00001010000100100011#20 = .loadMq 0x123 := by decide
theorem test_decode_stor : decode 0b00100001000000000000#20 = .storMX 0 := by decide
theorem test_decode_add : decode 0b00000111000000000011#20 = .addMX 3 := by decide
theorem test_decode_sub : decode 0b00000110000000000100#20 = .subMX 4 := by decide
theorem test_decode_other_zero : decode 0b00000000000000000000#20 = .other 0 0 := by decide
theorem test_decode_other_ones : decode 0b11111111111111111111#20 = .other 0xFF 0xFFF := by decide

/-- One-bit variants of 0x01 (the table of section B1): 0x00, 0x03, 0x05, 0x11, 0x41 and 0x81 are OTHER. -/
theorem test_decode_near_load :
    [0x00000#20, 0x03000, 0x05000, 0x11000, 0x41000, 0x81000].all (fun h => (decode h).isOther) = true := by decide

/-- V9i: opcodes a reader might know from elsewhere are OTHER. -/
theorem test_decode_v9i :
    [0x02002#20, 0x05005, 0x08001, 0x0B000, 0x0D005, 0x0E005, 0x20002, 0x22002].all (fun h => (decode h).isOther) = true := by decide

/-- R85: the words of the sample program. -/
theorem test_encode_word_0 : encodeWord (.loadMX 2) (.addMX 3) = 0x0100207003 := by decide
theorem test_encode_word_1 : encodeWord (.storMX 2) (.addMX 4) = 0x2100207004 := by decide
theorem test_encode_word_2 : encodeWord (.loadMqMX 3) (.loadMq 0xFFF) = 0x090030AFFF := by decide
theorem test_encode_word_3 : encodeWord (.addMX 4) (.subMX 4) = 0x0700406004 := by decide
theorem test_encode_word_4 : encodeWord (.other 0xFF 0xFFF) (.storMX 5) = 0xFFFFF21005 := by decide

/-- V1, V4. -/
theorem test_split_v1 : splitWord 0x123456789A = (0x12345, 0x6789A) := by decide
theorem test_fields_v4 : (opcodeOf 0x6789A, addressOf 0x6789A) = (0x67, 0x89A) := by decide
/-- V6, V7, V8. -/
theorem test_to_integer_v8 : toInteger 0x8000000000#40 = 549755813888 := by decide
theorem test_to_bits_v7 : toBits 4 40 = some 0x0000000004 := by decide
theorem test_to_bits_outside : toBits 4096 12 = none := by decide

theorem test_table_word : decodeTableWord 24 0x07003 = some (.addMX 3) := by decide
theorem test_table_word_too_wide : decodeTableWord 24 0x107003 = none := by decide

/-! ### Fetch phases (V10 to V13) -/

/-- V10. -/
theorem test_fetch_left_v10 : fetchLeft { mk fetchImage 0 none (some 9) none with pc := 1 } = .done
    { mk fetchImage 837 (some 0x123456789A) (some 9) none with pc := 1, ir := some 0x12, ibr := some 0x6789A } := by decide

/-- V11. -/
theorem test_fetch_right_v11 :
    fetchRight { mk fetchImage 837 (some 0x123456789A) (some 9) none with pc := 1, ir := some 0x12, ibr := some 0x6789A } = .done
      { mk fetchImage 2202 (some 0x123456789A) (some 9) none with pc := 2, ir := some 0x67, ibr := some 0x6789A } := by decide

/-- V12, V13: PC = N. -/
theorem test_fetch_left_v12 : fetchLeft { mk fetchImage 7 (some 1) none none with pc := 3 } =
    .raised (.addressOutOfRange 3) { mk fetchImage 3 (some 1) none none with pc := 3 } := by decide
theorem test_fetch_right_v13 : fetchRight { mk fetchImage 7 (some 1) none none with pc := 3 } =
    .raised (.addressOutOfRange 3) { mk fetchImage 3 (some 1) none none with pc := 3 } := by decide

/-! ### Instructions, at most two each -/

/-- V14, V15. -/
theorem test_load_v14 : stateOf (exec (.loadMX 2) (mk sample 2 (some 0x0100207003) none none)) =
    some (mk sample 2 (some 4) (some 4) none) := by decide
theorem test_load_v15 : stateOf (exec (.loadMX 4) (mk sample 4 (some 0x0100207003) (some 7) none)) =
    some { mk sample 4 (some 0x0100207003) (some 7) none with status := .faulted (.addressOutOfRange 4) } := by decide

/-- V17. -/
theorem test_load_mq_m_v17 : stateOf (exec (.loadMqMX 3) (mk [0, 0, 0, 0xAB, 1, 0] 3 none none none)) =
    some (mk [0, 0, 0, 0xAB, 1, 0] 3 (some 0xAB) none (some 0xAB)) := by decide

/-- V18 (MAR out of range, no fault), V19 (⊥ copied). -/
theorem test_load_mq_v18 : stateOf (exec (.loadMq 0xFFF) (mk [0, 0, 0, 0, 0, 0] 4095 (some 0x090030AFFF) none (some 0xAB))) =
    some (mk [0, 0, 0, 0, 0, 0] 4095 (some 0x090030AFFF) (some 0xAB) (some 0xAB)) := by decide
theorem test_load_mq_v19 : stateOf (exec (.loadMq 0) (mk [] 0 none (some 7) none)) = some (mk [] 0 none none none) := by decide

/-- V21 (MBR is stored, not AC), V24 (the bounds test comes first). -/
theorem test_stor_v21 : (stateOf (exec (.storMX 2) (mk sample 2 (some 0x2100207004) (some 7) none))).map (fun t => (t.mem.read 2, t.ac)) =
    some (0x2100207004, some 7) := by decide
theorem test_stor_v24 : (stateOf (exec (.storMX 4) (mk sample 4 none none none))).map State.status =
    some (.faulted (.addressOutOfRange 4)) := by decide

/-- V28 (the largest sum), V29 (the smallest that overflows). -/
theorem test_add_v28 : (stateOf (exec (.addMX 0) (mk [1] 0 none (some 0xFFFFFFFFFE) none))).map State.ac =
    some (some 0xFFFFFFFFFF) := by decide
theorem test_add_v29 : stateOf (exec (.addMX 0) (mk [1] 0 none (some 0xFFFFFFFFFF) none)) =
    some { mk [1] 0 (some 1) (some 0xFFFFFFFFFF) none with status := .faulted (.overflow 0x10000000000) } := by decide

/-- V32f (no subtraction), V32e. -/
theorem test_sub_v32f : stateOf (exec (.subMX 0) (mk [9] 0 none (some 2) none)) = some (mk [9] 0 (some 9) (some 2) none) := by decide
theorem test_sub_v32e : (stateOf (exec (.subMX 4) (mk sample 4 none none none))).map State.status =
    some (.faulted (.addressOutOfRange 4)) := by decide

/-- V33, and V36 (no jump exists: PC stays). -/
theorem test_other_v33 : stateOf (exec (.other 0xFF 0xFFF) (mk [0, 0, 0, 0, 0, 0] 4095 (some 0xFFFFF21005) (some 0xAC) (some 0xAB))) =
    some (mk [0, 0, 0, 0, 0, 0] 4095 (some 0xFFFFF21005) (some 0xAC) (some 0xAB)) := by decide
theorem test_other_v36 : (stateOf (execute { mk [] 0 none none none with ir := some 0x0D, pc := 3 })).map State.pc = some 3 := by decide

/-- V35. -/
theorem test_execute_v35 : (stateOf (execute (mk [0] 0 none none none))).map State.status =
    some (.faulted (.uninitializedRegister .ir)) := by decide

/-! ### The sequencer -/

/-- S6, phase 0.FL. -/
theorem test_step_s6_fl : stateOf (step (State.resetFor sample)) =
    some { mk sample 2 (some 0x0100207003) none none with ir := some 0x01, ibr := some 0x07003, phase := .execLeft } := by decide

/-- P1, phase 1.XR: the fault keeps the phase, and PC has been advanced. -/
theorem test_step_p1_xr :
    (stateOf (step { mk sample 4 (some 0x2100207004) (some 7) none with pc := 2, ir := some 0x07, ibr := some 0x07004, phase := .execRight })).map
      (fun t => (t.status, t.phase, t.pc, t.mbr, t.ac)) =
    some (.faulted (.addressOutOfRange 4), .execRight, 2, some 0x2100207004, some 7) := by decide

/-- V38: the last phase of a one-word run. -/
theorem test_step_v38 :
    (stateOf (step { mk [0] 0 (some 0) none none with pc := 1, ir := some 0, ibr := some 0, phase := .execRight })).map
      (fun t => (t.status, t.phase, t.pc)) = some (.done, .fetchLeft, 1) := by decide

/-- V37. -/
theorem test_reset_v37 : (State.resetFor []).status = .done := by decide
theorem test_reset_pc : (State.reset.pc, State.reset.status, State.reset.mem.wf) = (0, .running, true) := by decide

/-- The placed instruction is the one the very next step runs, here an ADD M(0) after reset, whose AC is ⊥. -/
theorem test_with_fetch_word : (stateOf (step (State.reset.withFetchWord 24 0x07000))).map (fun t => (t.status, t.mbr)) =
    some (.faulted (.uninitializedRegister .ac), some 0x0700000000) := by decide
theorem test_with_fetch_word_right :
    (State.withFetchWord { State.reset with phase := .fetchRight } 20 0x21001).mem.read 0 = 0x0000021001 := by decide

/-! ### The loader -/

/-- The first word of IASDOC section 8, as text. -/
def sampleText : List Char :=
  ['0', '0', '0', '0', '0', '0', '0', '1', '0', '0', '0', '0', '0', '0', '0', '0', '0', '0', '1', '0'] ++
  ['0', '0', '0', '0', '0', '1', '1', '1', '0', '0', '0', '0', '0', '0', '0', '0', '0', '0', '1', '1']

theorem test_parse_sample : parseWord sampleText = some 0x0100207003 := by decide
/-- Conflict C1: a six-digit element is malformed, not padded. -/
theorem test_parse_short : parseWord ['0', '0', '0', '1', '0', '0'] = none := by decide
theorem test_fault_codes : (Status.running.code, (Status.faulted (.overflow 0)).code) = (0, 4) := by decide

/-! ### Witnesses for the hypotheses of the statements -/

theorem witness_ToIntegerAndToBitsRoundTrip_inside : 2 ^ 40 - 1 < 2 ^ 40 := by decide
theorem witness_ToIntegerAndToBitsRoundTrip_outside : 2 ^ 12 ≤ 4096 := by decide

theorem witness_OpcodeFieldAloneSelectsTheRow :
    0x01FFF#20 &&& 0xFF000#20 = 0x01000#20 ∧ 0x09000#20 &&& 0xFF000#20 = 0x09000#20 ∧ 0x0AFFF#20 &&& 0xFF000#20 = 0x0A000#20 ∧
    0x21000#20 &&& 0xFF000#20 = 0x21000#20 ∧ 0x07FFF#20 &&& 0xFF000#20 = 0x07000#20 ∧ 0x06000#20 &&& 0xFF000#20 = 0x06000#20 ∧
    0x08FFF#20 &&& 0xFF000#20 ∉ [0x01000#20, 0x09000#20, 0x0A000#20, 0x21000#20, 0x07000#20, 0x06000#20] := by decide

theorem witness_DecodeOfEncodeIsTheInstruction :
    (Instr.other 0xFF 0xFFF).wellFormed = true ∧ (Instr.storMX 0xFFF).wellFormed = true := by decide

theorem witness_WordsBelow4096AreInert : (0x0000000FFF#40).toNat < 4096 := by decide

theorem witness_ResetPutsEveryFieldAtItsValue : sample.length ≤ 4096 ∧ 2 < sample.length := by decide
theorem witness_ResetPutsEveryFieldAtItsValue_longest : (List.replicate 4096 (0 : Word)).length ≤ 4096 :=
  Nat.le_of_eq List.length_replicate

theorem digits_sampleText : sampleText.all (fun c => c == '0' || c == '1') = true := by decide

theorem validText_sampleText : ValidText sampleText :=
  ⟨by decide, fun c h => by simpa using List.all_eq_true.1 digits_sampleText c h⟩

theorem witness_TextImagesLoadOrAreRejected_valid : (∀ t ∈ [sampleText], ValidText t) ∧ [sampleText].length ≤ 4096 :=
  ⟨fun t h => List.mem_singleton.1 h ▸ validText_sampleText, by decide⟩
theorem witness_TextImagesLoadOrAreRejected_long :
    (∀ t ∈ List.replicate 4097 sampleText, ValidText t) ∧ 4096 < (List.replicate 4097 sampleText).length :=
  ⟨fun _ h => (List.eq_of_mem_replicate h) ▸ validText_sampleText, by rw [List.length_replicate]; decide⟩
theorem witness_TextImagesLoadOrAreRejected_malformed :
    1 < [sampleText, ['0', '2']].length ∧ (∀ t ∈ [sampleText, ['0', '2']].take 1, ValidText t) ∧ ¬ ValidText ([sampleText, ['0', '2']][1]) :=
  ⟨by decide, fun t h => List.mem_singleton.1 h ▸ validText_sampleText, by unfold ValidText; decide⟩

/-- 4097 elements of which the last is malformed: the third clause is met where the length alone would be refused. -/
theorem witness_TextImagesLoadOrAreRejected_malformed_and_long :
    4096 < (List.replicate 4096 sampleText ++ [['0', '2']]).length ∧
    (∀ t ∈ (List.replicate 4096 sampleText ++ [['0', '2']]).take 4096, ValidText t) ∧
    ∃ h : 4096 < (List.replicate 4096 sampleText ++ [['0', '2']]).length,
      ¬ ValidText ((List.replicate 4096 sampleText ++ [['0', '2']])[4096]) := by
  have hl : (List.replicate 4096 sampleText).length = 4096 := List.length_replicate
  have h : 4096 < (List.replicate 4096 sampleText ++ [['0', '2']]).length := by rw [List.length_append, hl]; decide
  refine ⟨h, fun t ht => ?_, h, ?_⟩
  · rw [List.take_left' hl] at ht
    exact List.eq_of_mem_replicate ht ▸ validText_sampleText
  · rw [List.getElem_concat_length hl.symm]
    exact fun hv => absurd hv.1 (by decide)

/-- A state with the status given. -/
def withStatus (v : Status) : State := { mk sample 3 (some 1) (some 2) none with status := v }

theorem witness_PinsShowStatusCodeAndTheStoppedState :
    (withStatus .running).status = .running ∧ (withStatus .done).status = .done ∧
    (withStatus (.faulted (.malformedWord 0))).status = .faulted (.malformedWord 0) ∧
    (withStatus (.faulted (.uninitializedRegister .ac))).status = .faulted (.uninitializedRegister .ac) ∧
    (withStatus (.faulted (.addressOutOfRange 4))).status = .faulted (.addressOutOfRange 4) ∧
    (withStatus (.faulted (.overflow 0x10000000000))).status = .faulted (.overflow 0x10000000000) := by decide

theorem witness_MemoryPrimitivesReadAndReplaceOneWord_last : 3 < (Memory.ofImage sample).size := by decide
theorem witness_MemoryPrimitivesReadAndReplaceOneWord_first_absent : (Memory.ofImage sample).size ≤ 4 := by decide

/-- For the staged accesses and every instruction that makes one: the last word, and the first index that does not exist. -/
def atLast : State := mk sample 3 (some 5) (some 6) (some 7)
def atEnd : State := mk sample 4 (some 5) (some 6) (some 7)

theorem witness_StagedReadWritesMbrAndNothingElse : atLast.mar < atLast.mem.size ∧ atEnd.mem.size ≤ atEnd.mar := by decide
theorem witness_StagedWriteWritesOneSlotAndNothingElse_done : atLast.mar < atLast.mem.size ∧ atLast.mbr = some 5 := by decide
theorem witness_StagedWriteWritesOneSlotAndNothingElse_bottom :
    (mk sample 3 none none none).mar < (mk sample 3 none none none).mem.size ∧ (mk sample 3 none none none).mbr = none := by decide
theorem witness_StagedWriteWritesOneSlotAndNothingElse_range : atEnd.mem.size ≤ atEnd.mar := by decide

theorem witness_CanonicalMemoriesThatReadAlikeAreEqual :
    (Memory.ofImage [7, 0, 9]).wf = true ∧ (((Memory.ofImage [0, 0, 9]).write 0 7).wf = true) ∧
    (Memory.ofImage [7, 0, 9]).size = ((Memory.ofImage [0, 0, 9]).write 0 7).size ∧
    ∀ a, a < 3 → (Memory.ofImage [7, 0, 9]).read a = ((Memory.ofImage [0, 0, 9]).write 0 7).read a := by decide

theorem witness_FetchSeesTheStoredWord : atLast.mar < atLast.mem.size ∧ atLast.mbr = some 5 := by decide

theorem witness_FetchLeftStagesTheLeftInstruction :
    { atLast with pc := 3 }.pc < { atLast with pc := 3 }.mem.size ∧ { atLast with pc := 4 }.mem.size ≤ { atLast with pc := 4 }.pc := by decide
theorem witness_FetchRightStagesTheRightInstructionThenAdvancesPc :
    { atLast with pc := 3 }.pc < { atLast with pc := 3 }.mem.size ∧ { atLast with pc := 4 }.mem.size ≤ { atLast with pc := 4 }.pc := by decide

/-- `atLast` with the opcode given in IR. -/
def withIr (op : Opcode) : State := { atLast with ir := some op }

theorem witness_ExecuteDispatchesOnIrOnly :
    atLast.ir = none ∧ (withIr 0x01).ir = some 0x01 ∧ (withIr 0x09).ir = some 0x09 ∧ (withIr 0x0A).ir = some 0x0A ∧
    (withIr 0x21).ir = some 0x21 ∧ (withIr 0x07).ir = some 0x07 ∧ (withIr 0x06).ir = some 0x06 ∧
    isRecognized 0xFF = false ∧ (withIr 0xFF).ir = some 0xFF := by decide

theorem witness_StepRunsTheDecodedInstruction_left :
    (State.resetFor sample).status = .running ∧ (State.resetFor sample).pc < (State.resetFor sample).mem.size ∧
    (State.resetFor sample).phase = .fetchLeft ∧ decode (leftOf ((State.resetFor sample).mem.read 0)) = .loadMX 2 := by decide

/-- S6 after 0.XL. -/
def afterLoad : State :=
  { mk sample 2 (some 4) (some 4) none with ir := some 0x01, ibr := some 0x07003, phase := .fetchRight }

theorem witness_StepRunsTheDecodedInstruction_right :
    afterLoad.status = .running ∧ afterLoad.pc < afterLoad.mem.size ∧ afterLoad.phase = .fetchRight ∧
    decode (rightOf (afterLoad.mem.read 0)) = .addMX 3 := by decide

theorem witness_WithFetchWordRunsThatInstructionNext : decodeTableWord 24 0x21FFF = some (.storMX 0xFFF) := by decide
theorem witness_WithFetchWordRunsThatInstructionNext_phases :
    (State.reset.withFetchWord 24 0x21FFF).phase = .execLeft ∧ (afterLoad.withFetchWord 24 0x21FFF).phase = .execRight := by decide

/-- V38 before its last phase; its step reaches DONE. -/
def lastPhase : State := { mk [0] 0 (some 0) none none with pc := 1, ir := some 0, ibr := some 0, phase := .execRight }
/-- P6 before its fault. -/
def beforeFault : State :=
  { mk [0x0700100000, 5] 1 (some 0x0700100000) none none with ir := some 0x07, ibr := some 0, phase := .execLeft }
/-- P6 after its fault. -/
def afterFault : State :=
  { beforeFault with mbr := some 5, status := .faulted (.uninitializedRegister .ac) }

theorem step_lastPhase : step lastPhase = .next { lastPhase with phase := .fetchLeft, status := .done } := next_of_stateOf (by decide)
theorem step_beforeFault : step beforeFault = .next afterFault := next_of_stateOf (by decide)
theorem step_afterLoad : step afterLoad = .next
    { mk sample 3 (some 0x0100207003) (some 4) none with pc := 1, ir := some 0x07, ibr := some 0x07003, phase := .execRight } :=
  next_of_stateOf (by decide)

theorem witness_PhasesAdvanceInOrderUntilPcIsN_running :
    afterLoad.status = .running ∧ ∃ t, step afterLoad = .next t ∧ t.status = .running := ⟨rfl, _, step_afterLoad, rfl⟩
theorem witness_PhasesAdvanceInOrderUntilPcIsN_done :
    lastPhase.status = .running ∧ ∃ t, step lastPhase = .next t ∧ t.status = .done := ⟨rfl, _, step_lastPhase, rfl⟩
theorem witness_PhasesAdvanceInOrderUntilPcIsN_faulted :
    beforeFault.status = .running ∧ ∃ t, step beforeFault = .next t ∧ t.status = .faulted (.uninitializedRegister .ac) :=
  ⟨rfl, _, step_beforeFault, rfl⟩

theorem witness_StepAnswersExactlyWhileRunning :
    lastPhase.status = .running ∧ (withStatus .done).status = .done ∧ afterFault.status = .faulted (.uninitializedRegister .ac) := by decide

theorem witness_PcChangesOnlyAtTheEndOfFetchRight_step : ∃ t, step afterLoad = .next t := ⟨_, step_afterLoad⟩
theorem witness_PcChangesOnlyAtTheEndOfFetchRight_exec : ∃ t, exec (.other 0 0) atLast = .next t := ⟨_, rfl⟩

theorem witness_LoadMxLoadsAccumulatorAndMbr : atLast.mar < atLast.mem.size ∧ atEnd.mem.size ≤ atEnd.mar := by decide
theorem witness_LoadMqMxLoadsMqAndMbr : atLast.mar < atLast.mem.size ∧ atEnd.mem.size ≤ atEnd.mar := by decide
theorem witness_SubMxOnlyReadsMemory : atLast.mar < atLast.mem.size ∧ atEnd.mem.size ≤ atEnd.mar := by decide
theorem witness_StorMxStoresMbr_done : atLast.mar < atLast.mem.size ∧ atLast.mbr = some 5 := by decide
theorem witness_StorMxStoresMbr_range : atEnd.mem.size ≤ atEnd.mar := by decide
theorem witness_StorMxStoresMbr_bottom :
    (mk sample 3 none none none).mar < (mk sample 3 none none none).mem.size ∧ (mk sample 3 none none none).mbr = none := by decide

/-- AC + M[0] = 2^40 - 1, the largest sum; and with AC one larger, the smallest that overflows. -/
def largestSum : State := mk [1] 0 none (some 0xFFFFFFFFFE) none
def smallestOverflow : State := mk [1] 0 none (some 0xFFFFFFFFFF) none

theorem witness_AddMxAddsOrFaultsInOrder_sum :
    largestSum.mar < largestSum.mem.size ∧ largestSum.ac = some 0xFFFFFFFFFE ∧
    (0xFFFFFFFFFF#40).toNat = (0xFFFFFFFFFE#40).toNat + (largestSum.mem.read largestSum.mar).toNat := by decide
theorem witness_AddMxAddsOrFaultsInOrder_range : atEnd.mem.size ≤ atEnd.mar := by decide
theorem witness_AddMxAddsOrFaultsInOrder_bottom :
    (mk sample 3 none none none).mar < (mk sample 3 none none none).mem.size ∧ (mk sample 3 none none none).ac = none := by decide
theorem witness_AddMxAddsOrFaultsInOrder_overflow :
    smallestOverflow.mar < smallestOverflow.mem.size ∧ smallestOverflow.ac = some 0xFFFFFFFFFF ∧
    2 ^ 40 ≤ (0xFFFFFFFFFF#40).toNat + (smallestOverflow.mem.read smallestOverflow.mar).toNat := by decide

theorem witness_OtherOpcodesChangeNothing :
    (0x02 : Opcode) ≠ 0x01 ∧ (0x02 : Opcode) ≠ 0x06 ∧ (0x02 : Opcode) ≠ 0x07 ∧ (0x02 : Opcode) ≠ 0x09 ∧ (0x02 : Opcode) ≠ 0x0A ∧
    (0x02 : Opcode) ≠ 0x21 := by decide

theorem witness_RegisterInstructionsLeaveTheRestAlone :
    (∀ x, Instr.addMX 0 ≠ .storMX x) ∧ (∀ x, Instr.subMX 0 ≠ .loadMX x) ∧ (∀ x, Instr.subMX 0 ≠ .loadMqMX x) ∧
    (∀ x, Instr.subMX 0 ≠ .loadMq x) ∧ (∀ x, Instr.loadMq 0 ≠ .addMX x) ∧ (∀ x, Instr.loadMq 0 ≠ .subMX x) ∧
    ∃ t, exec (.addMX 0) largestSum = .next t ∧ t.ac = some 0xFFFFFFFFFF := by
  refine ⟨?_, ?_, ?_, ?_, ?_, ?_, _, next_of_stateOf (t := mk [1] 0 (some 1) (some 0xFFFFFFFFFF) none) (by decide), rfl⟩ <;> intro x h <;> cases h

theorem witness_StorLeavesTheRestAlone :
    ∃ t, exec (.storMX 3) atLast = .next t ∧ 0 ≠ atLast.mar :=
  ⟨atLast.setMem (atLast.mem.write 3 5), next_of_stateOf (by decide), by decide⟩

theorem witness_LoadMqAndOtherDoNotReachMemory :
    accessesMemory (.loadMq 0xFFF) = false ∧ accessesMemory (.other 0 0xFFF) = false := by decide

theorem witness_ArithmeticUnitIsExactOrOverflows :
    (BitVec.ofNat 41 ((0xFFFFFFFFFE#40).toNat + (1#40).toNat)).getLsbD 40 = false ∧
    (BitVec.ofNat 41 ((0xFFFFFFFFFF#40).toNat + (1#40).toNat)).getLsbD 40 = true := by decide

theorem witness_LoadThenStorWithNoFetchBetweenKeepsMemory : atLast.mem.wf = true ∧ atLast.mar < atLast.mem.size := by decide

theorem witness_EachInstructionTakesExactlyItsFaults_range :
    atEnd.status = .running ∧ ∃ t, exec (.loadMX 4) atEnd = .next t ∧ t.status = .faulted (.addressOutOfRange 4) :=
  ⟨rfl, _, rfl, rfl⟩
theorem witness_EachInstructionTakesExactlyItsFaults_bottom :
    ∃ t, exec (.storMX 3) (mk sample 3 none none none) = .next t ∧ t.status = .faulted (.uninitializedRegister .mbr) :=
  ⟨(mk sample 3 none none none).takeFault (.uninitializedRegister .mbr), next_of_stateOf (by decide), rfl⟩
theorem witness_EachInstructionTakesExactlyItsFaults_overflow :
    ∃ t, exec (.addMX 0) smallestOverflow = .next t ∧ t.status = .faulted (.overflow 0x10000000000) :=
  ⟨(smallestOverflow.setMbr 1).takeFault (.overflow 0x10000000000), next_of_stateOf (by decide), rfl⟩

theorem witness_ATakenFaultKeepsThePhaseAndIsSticky :
    step beforeFault = .next afterFault ∧ afterFault.status = .faulted (.uninitializedRegister .ac) := ⟨step_beforeFault, rfl⟩

/-- V19 as a phase: LOAD MQ with MQ = ⊥ and AC set, every other register set too. -/
def beforeLoadMq : State :=
  { mk [0x0A0000A000] 0 (some 0x0A0000A000) (some 7) none with ir := some 0x0A, ibr := some 0x0A000, phase := .execLeft }

theorem witness_NoRegisterReturnsToUninitializedButAcByLoadMq :
    beforeLoadMq.mbr ≠ none ∧ beforeLoadMq.ir ≠ none ∧ beforeLoadMq.ibr ≠ none ∧ atLast.mq ≠ none ∧ beforeLoadMq.ac ≠ none ∧
    ∃ t, step beforeLoadMq = .next t ∧ t.ac = none :=
  ⟨by decide, by decide, by decide, by decide, by decide, { beforeLoadMq with ac := none, phase := .fetchRight }, next_of_stateOf (by decide), rfl⟩

/-- S6 after 0.FR: the right half ADD M(3) of slot 0 is about to be executed. -/
def beforeAdd : State :=
  { mk sample 3 (some 0x0100207003) (some 4) none with pc := 1, ir := some 0x07, ibr := some 0x07003, phase := .execRight }

theorem witness_AccumulatorAndMqNeverReachMemory :
    ∃ t t', step beforeFault = .next t ∧ step ((beforeFault.setAc (some 1)).setMq none) = .next t' :=
  ⟨_, { beforeFault with mbr := some 5, ac := some 6, phase := .fetchRight }, step_beforeFault, next_of_stateOf (by decide)⟩

/-- Neither of the two runs faults: ADD M(3) with two different sums. -/
theorem witness_AccumulatorAndMqNeverReachMemory_both_go_on :
    ∃ t t', step beforeAdd = .next t ∧ step ((beforeAdd.setAc (some 9)).setMq (some 1)) = .next t' ∧
      t.ac ≠ t'.ac ∧ t.status = .running ∧ t'.status = .running :=
  ⟨{ beforeAdd with mbr := some 3, ac := some 7, phase := .fetchLeft },
    { beforeAdd with mbr := some 3, ac := some 12, mq := some 1, phase := .fetchLeft },
    next_of_stateOf (by decide), next_of_stateOf (by decide), by decide, rfl, rfl⟩

theorem witness_AccumulatorAndMqNeverReachMemoryInAnyRun :
    ∃ t t', Host.Core.run Sys2Proof.core 1 beforeAdd = .next t ∧
      Host.Core.run Sys2Proof.core 1 ((beforeAdd.setAc (some 9)).setMq (some 1)) = .next t' ∧ t.ac ≠ t'.ac :=
  ⟨{ beforeAdd with mbr := some 3, ac := some 7, phase := .fetchLeft },
    { beforeAdd with mbr := some 3, ac := some 12, mq := some 1, phase := .fetchLeft },
    next_of_stateOf (o := Host.Core.run Sys2Proof.core 1 beforeAdd) (by decide),
    next_of_stateOf (o := Host.Core.run Sys2Proof.core 1 ((beforeAdd.setAc (some 9)).setMq (some 1))) (by decide), by decide⟩

theorem witness_StepKeepsMemoryCanonicalAndItsLength : afterLoad.mem.wf = true ∧ ∃ t, step afterLoad = .next t :=
  ⟨by decide, _, step_afterLoad⟩

theorem witness_DrivenRunInvariantHoldsAtReset : sample.length ≤ 4096 := by decide

theorem inv_afterLoad : Inv afterLoad := ⟨by decide, by decide, by decide, by decide, rfl⟩
theorem inv_beforeFault : Inv beforeFault := ⟨by decide, by decide, by decide, ⟨by decide, rfl, rfl, rfl⟩, rfl⟩

theorem witness_DrivenRunInvariantIsKeptByEveryStep : Inv afterLoad ∧ ∃ t, step afterLoad = .next t :=
  ⟨inv_afterLoad, _, step_afterLoad⟩

/-- V20 after 0.FR: a right-half STOR M(1). -/
def beforeStor : State :=
  { mk [0x0100121001, 4] 1 (some 0x0100121001) (some 4) none with pc := 1, ir := some 0x21, ibr := some 0x21001, phase := .execRight }

theorem witness_StorInADrivenRunStoresItsOwnWord :
    Inv beforeStor ∧ beforeStor.status = .running ∧ InExecute beforeStor ∧ beforeStor.ir = some 0x21 ∧ beforeStor.mar < beforeStor.mem.size :=
  ⟨⟨by decide, by decide, by decide, by decide, ⟨by decide, rfl, rfl, rfl⟩, rfl⟩, rfl, .inr rfl, rfl, by decide⟩

theorem witness_RefetchRewritesIbrWithItsOwnValue : Inv afterLoad ∧ afterLoad.status = .running ∧ afterLoad.phase = .fetchRight :=
  ⟨inv_afterLoad, rfl, rfl⟩

theorem witness_ADrivenRunTakesOnlyThreeFaults :
    Inv beforeFault ∧ step beforeFault = .next afterFault ∧ afterFault.status = .faulted (.uninitializedRegister .ac) :=
  ⟨inv_beforeFault, step_beforeFault, rfl⟩

theorem witness_EveryRunEndsWithin4NPhases : sample.length ≤ 4096 := by decide

theorem witness_ARunReachesDoneAfterExactly4NPhases_running :
    sample.length ≤ 4096 ∧ ∃ t, step (State.resetFor sample) = .next t ∧ t.status = .running :=
  ⟨by decide, _, next_of_stateOf test_step_s6_fl, rfl⟩
theorem witness_ARunReachesDoneAfterExactly4NPhases_done : (State.resetFor []).status = .done ∧ ([] : List Word).length ≤ 4096 := by decide

theorem witness_InertImagesRunToDoneUnchanged :
    [0xFFFFFFFFFE#40, 1#40].length ≤ 4096 ∧ ∀ w ∈ [0xFFFFFFFFFE#40, 1#40], inertWord w = true :=
  ⟨by simp, by simp [inertWord]; decide⟩

theorem inv_lastPhase : Inv lastPhase := ⟨by decide, by decide, by decide, by decide, ⟨by decide, rfl, rfl, rfl⟩, rfl⟩

theorem witness_EachStepOfADrivenRunCountsOnePhase_running :
    Inv afterLoad ∧ ∃ t, step afterLoad = .next t ∧ t.status = .running := ⟨inv_afterLoad, _, step_afterLoad, rfl⟩
theorem witness_EachStepOfADrivenRunCountsOnePhase_done :
    Inv lastPhase ∧ ∃ t, step lastPhase = .next t ∧ t.status = .done := ⟨inv_lastPhase, _, step_lastPhase, rfl⟩
theorem witness_EachStepOfADrivenRunCountsOnePhase_faulted :
    Inv beforeFault ∧ ∃ t, step beforeFault = .next t ∧ t.status = .faulted (.uninitializedRegister .ac) :=
  ⟨inv_beforeFault, _, step_beforeFault, rfl⟩

theorem witness_InertRunInvariantIsKeptByEveryStep : InertInv lastPhase ∧ ∃ t, step lastPhase = .next t :=
  ⟨⟨inv_lastPhase, fun f h => (by cases h), rfl, rfl, by decide⟩, _, step_lastPhase⟩

theorem witness_InertRunInvariantHoldsAtReset :
    [0xFFFFFFFFFE#40, 1#40].length ≤ 4096 ∧ ∀ w ∈ [0xFFFFFFFFFE#40, 1#40], inertWord w = true :=
  witness_InertImagesRunToDoneUnchanged

end Sys2Proof.Tests
end

/-! The memory primitives and the staged read (spec/20_memory.md R53 to R55). -/

namespace Sys2Proof.Machine

/-! ### The staged read, case by case -/

theorem readMemory_of_lt {s : State} (h : s.mar < s.mem.size) :
    readMemory s = .done (s.setMbr (s.mem.read s.mar)) :=
  readMemoryThen_of_lt h _

theorem readMemory_of_le {s : State} (h : s.mem.size ≤ s.mar) :
    readMemory s = .raised (.addressOutOfRange s.mar) s :=
  readMemoryThen_of_le h _

/-! ### The obligations -/

/-- Settles O13: below N the replaced memory is `m.write a v`, whose reads the memory laws give; from N on the bounds
test of either primitive raises. -/
theorem memoryPrimitivesReadAndReplaceOneWord : Obligations.MemoryPrimitivesReadAndReplaceOneWord := by
  intro m a v
  constructor
  · intro inRange
    have others_kept : ∀ b, b ≠ a → (m.write a v).read b = m.read b := fun b hb => m.read_write_other hb v
    exact ⟨memRead_of_lt inRange,
      m.write a v, memWrite_of_lt inRange v, m.write_size a v, m.read_write_same a v, others_kept⟩
  · intro outOfRange
    exact ⟨memRead_of_le outOfRange, memWrite_of_le outOfRange v⟩

/-- Settles O14: the one assignment of a staged read is MBR's, and the bounds test comes before it. -/
theorem stagedReadWritesMbrAndNothingElse : Obligations.StagedReadWritesMbrAndNothingElse :=
  fun _ => ⟨readMemory_of_lt, readMemory_of_le⟩

end Sys2Proof.Machine

/-! The word unpacker and the opcode map under the mask of its opcode field (spec/30_encoding.md R72, R78). -/

namespace Sys2Proof

/-! ### The mask 0xFF000 and the opcode field -/

/-- The two fields joined give the instruction (R77 (b)). -/
@[simp] theorem joinHalf_opcodeOf_addressOf (ins : Half) : joinHalf (opcodeOf ins) (addressOf ins) = ins := by
  apply BitVec.eq_of_toNat_eq
  rw [joinHalf_toNat, opcodeOf_toNat, addressOf_toNat]
  omega

/-- The mask 0xFF000 keeps the opcode field and clears the address field. -/
theorem and_opcodeMask (ins : Half) : ins &&& 0xFF000#20 = joinHalf (opcodeOf ins) 0#12 :=
  calc ins &&& 0xFF000#20
      = joinHalf (opcodeOf ins) (addressOf ins) &&& joinHalf (BitVec.allOnes 8) 0#12 := by
        rw [joinHalf_opcodeOf_addressOf]; rfl
    _ = joinHalf (opcodeOf ins &&& BitVec.allOnes 8) (addressOf ins &&& 0#12) := BitVec.and_append
    _ = joinHalf (opcodeOf ins) 0#12 := by rw [BitVec.and_allOnes, BitVec.and_zero]

theorem and_opcodeMask_eq_joinHalf_iff (ins : Half) (op : Opcode) :
    ins &&& 0xFF000#20 = joinHalf op 0#12 ↔ opcodeOf ins = op := by
  rw [and_opcodeMask]
  constructor
  · intro h
    simpa using congrArg opcodeOf h
  · rintro rfl
    rfl

/-! ### The rows -/

theorem decode_of_and_opcodeMask {ins : Half} {op : Opcode} (h : ins &&& 0xFF000#20 = joinHalf op 0#12) :
    decode ins = decodeFields op (addressOf ins) := by
  rw [decode, (and_opcodeMask_eq_joinHalf_iff ins op).1 h]

theorem decodeFields_of_not_recognized {op : Opcode} (h : op ∉ recognizedOpcodes) (x : Addr) :
    decodeFields op x = .other op x := by
  simp only [recognizedOpcodes, List.mem_cons, List.not_mem_nil, or_false, not_or] at h
  obtain ⟨load, loadMqM, loadMq, stor, add, sub⟩ := h
  simp only [decodeFields, if_neg load, if_neg loadMqM, if_neg loadMq, if_neg stor, if_neg add, if_neg sub]

/-- The patterns of R78 under the mask, in the order of `recognizedOpcodes`. -/
theorem map_joinHalf_recognizedOpcodes : recognizedOpcodes.map (joinHalf · 0#12) =
    [0x01000#20, 0x09000#20, 0x0A000#20, 0x21000#20, 0x07000#20, 0x06000#20] := by decide

/-! ### The obligations -/

/-- Settles O4: under the mask an instruction is its opcode field joined with address 0, so a match is an equality of
opcodes, which fixes the row of `decodeFields`. -/
theorem opcodeFieldAloneSelectsTheRow : Obligations.OpcodeFieldAloneSelectsTheRow := by
  intro ins
  refine ⟨decode_of_and_opcodeMask (op := 0x01), decode_of_and_opcodeMask (op := 0x09),
    decode_of_and_opcodeMask (op := 0x0A), decode_of_and_opcodeMask (op := 0x21),
    decode_of_and_opcodeMask (op := 0x07), decode_of_and_opcodeMask (op := 0x06), fun unmatched => ?_⟩
  have unrecognized : opcodeOf ins ∉ recognizedOpcodes := by
    intro recognized
    apply unmatched
    rw [and_opcodeMask, ← map_joinHalf_recognizedOpcodes]
    exact List.mem_map_of_mem recognized
  exact decodeFields_of_not_recognized unrecognized (addressOf ins)

/-- Settles O1: the pair is the definition of `splitWord`; a word is below 2^40, so the remainder does not cut w[39:20],
and w[19:0] starts at bit 0. -/
theorem splitWordGivesTheTwoHalves : Obligations.SplitWordGivesTheTwoHalves := by
  intro w
  refine ⟨rfl, ?_, ?_⟩
  · have := w.isLt
    rw [leftOf_toNat]
    omega
  · rw [rightOf_toNat, Nat.pow_zero, Nat.div_one]

end Sys2Proof

/-! The dispatch of `execute()` and the one place where PC changes (spec/40_instruction_cycle.md R106, R108). -/

namespace Sys2Proof.Machine

/-! ### The dispatch -/

theorem execute_none {s : State} (h : s.ir = none) : execute s = .next (s.takeFault (.uninitializedRegister .ir)) := by
  simp [execute, h]

/-- An operation takes its address from MAR: the row of `op` has one meaning under every address in the term. -/
theorem exec_decodeFields_address (op : Opcode) (x y : Addr) (s : State) :
    exec (decodeFields op x) s = exec (decodeFields op y) s := by
  unfold decodeFields
  split_ifs <;> rfl

theorem execute_eq_exec_decodeFields {s : State} {op : Opcode} (h : s.ir = some op) (x : Addr) :
    execute s = exec (decodeFields op x) s :=
  (execute_some h).trans (exec_decodeFields_address op _ x s)

/-! ### PC under the operations of an execute phase -/

/-- Taking a fault keeps PC, so the outcome has the PC of the assignments made. -/
theorem Res.pc_of_outcome {r : Res} {n : Nat} {t : State} (hpc : r.state.pc = n) (h : r.outcome = .next t) : t.pc = n := by
  cases r with
  | done s => cases h; exact hpc
  | raised f s => cases h; exact hpc

/-- A staged read keeps PC when the statements after it do. -/
theorem readMemoryThen_pc {k : Word → State → Res} (hk : ∀ w t, (k w t).state.pc = t.pc) (s : State) :
    (readMemoryThen s k).state.pc = s.pc := by
  rcases readMemoryThen_cases s k with ⟨_, e⟩ | ⟨_, e⟩
  · rw [e, hk, State.setMbr_pc]
  · rw [e, Res.state]

theorem writeMemory_pc (s : State) : (writeMemory s).state.pc = s.pc := by
  rcases writeMemory_cases s with ⟨w, _, _, e⟩ | ⟨_, _, e⟩ | ⟨_, e⟩ <;> rw [e] <;> rfl

theorem addOperand_pc (b : Word) (s : State) : (addOperand b s).state.pc = s.pc := by
  rcases addOperand_cases b s with ⟨_, e⟩ | ⟨a, _, _, e⟩ | ⟨a, _, _, e⟩ <;> rw [e] <;> rfl

theorem exec_pc {i : Instr} {s t : State} (h : exec i s = .next t) : t.pc = s.pc := by
  cases i with
  | loadMX x => exact Res.pc_of_outcome (readMemoryThen_pc (fun _ _ => rfl) s) h
  | loadMqMX x => exact Res.pc_of_outcome (readMemoryThen_pc (fun _ _ => rfl) s) h
  | loadMq x => exact Res.pc_of_outcome (r := .done (s.setAc s.mq)) (State.setAc_pc s s.mq) h
  | storMX x => exact Res.pc_of_outcome (writeMemory_pc s) h
  | addMX x => exact Res.pc_of_outcome (readMemoryThen_pc addOperand_pc s) h
  | subMX x => exact Res.pc_of_outcome (readMemoryThen_pc (fun _ _ => rfl) s) h
  | other op x => exact Res.pc_of_outcome (r := .done s) rfl h

theorem execute_pc {s t : State} (h : execute s = .next t) : t.pc = s.pc := by
  cases hir : s.ir with
  | none =>
    rw [execute_none hir] at h
    cases h
    exact State.takeFault_pc s _
  | some op =>
    rw [execute_some hir] at h
    exact exec_pc h

/-! ### PC under the fetch phases -/

theorem fetchLeft_pc (s : State) : (fetchLeft s).state.pc = s.pc :=
  readMemoryThen_pc (fun _ _ => rfl) (s.setMar s.pc)

/-- The bounds test of FETCH_RIGHT comes before its increment of PC. -/
theorem fetchRight_pc (s : State) : (fetchRight s).state.pc = if s.pc < s.mem.size then s.pc + 1 else s.pc := by
  split
  next inRange => rw [fetchRight_of_lt inRange, Res.state, State.setPc_pc]
  next outOfRange => rw [fetchRight_of_le (Nat.le_of_not_lt outOfRange), Res.state, State.setMar_pc]

/-! ### PC under a step -/

theorem phaseOperation_pc {s u : State} (h : phaseOperation s = .next u) :
    u.pc = if s.phase = .fetchRight ∧ s.pc < s.mem.size then s.pc + 1 else s.pc := by
  unfold phaseOperation at h
  cases hp : s.phase <;> simp only [hp] at h
  case fetchLeft => simpa using Res.pc_of_outcome (fetchLeft_pc s) h
  case execLeft => simpa using execute_pc h
  case fetchRight => simpa using Res.pc_of_outcome (fetchRight_pc s) h
  case execRight => simpa using execute_pc h

theorem running_of_step_next {s t : State} (h : step s = .next t) : s.status = .running := by
  cases hs : s.status with
  | running => rfl
  | done => simp [step, stepOnce, hs] at h
  | faulted f => simp [step, stepOnce, hs] at h

theorem sequencer_next_cases {o : Host.Outcome State Fault Refusal} {t : State} (h : sequencer o = .next t) :
    ∃ u, o = .next u ∧ t = if u.isRunning then advance u else u := by
  cases o with
  | next u => cases h; exact ⟨u, rfl, rfl⟩
  | fault r => cases h
  | refused r => cases h

/-- A step that answers is the operation of its phase, and then the sequencer's advance unless a fault was taken. -/
theorem step_next_cases {s t : State} (h : step s = .next t) :
    ∃ u, phaseOperation s = .next u ∧ t = if u.isRunning then advance u else u := by
  rw [step_running (running_of_step_next h)] at h
  exact sequencer_next_cases h

theorem advance_pc (s : State) : (advance s).pc = s.pc := by
  rw [advance_eq, State.setStatus_pc, State.setPhase_pc]

theorem step_pc {s t : State} (h : step s = .next t) :
    t.pc = if s.phase = .fetchRight ∧ s.pc < s.mem.size then s.pc + 1 else s.pc := by
  obtain ⟨u, operation, rfl⟩ := step_next_cases h
  have sequencer_keeps : (if u.isRunning then advance u else u).pc = u.pc := by
    split
    · exact advance_pc u
    · rfl
  exact sequencer_keeps.trans (phaseOperation_pc operation)

/-! ### The obligations -/

/-- Settles O25: the sequencer and every execute phase keep PC, so a step changes it where its fetch does. -/
theorem pcChangesOnlyAtTheEndOfFetchRight : Obligations.PcChangesOnlyAtTheEndOfFetchRight :=
  ⟨fun _ _ => step_pc, fun _ _ _ => exec_pc⟩

/-- Settles O20: `execute()` runs the row of the opcode in IR under any address, and an unrecognized opcode's row is OTHER. -/
theorem executeDispatchesOnIrOnly : Obligations.ExecuteDispatchesOnIrOnly := by
  intro s x
  have row {op : Opcode} (h : s.ir = some op) : execute s = exec (decodeFields op x) s := execute_eq_exec_decodeFields h x
  refine ⟨execute_none, row, row, row, row, row, row, ?_⟩
  intro op unrecognized h
  have isOther : decodeFields op x = .other op x :=
    decodeFields_of_not_recognized (by simpa [isRecognized] using unrecognized) x
  rw [row h, isOther]
  rfl

end Sys2Proof.Machine

/-! The two loads that read memory (spec/41_data_transfer.md R120, R121). -/

namespace Sys2Proof

/-- An instruction built from its two fields is the row of its opcode (R71, R78). -/
theorem decode_joinHalf (op : Opcode) (x : Addr) : decode (joinHalf op x) = decodeFields op x := by
  rw [decode, opcodeOf_joinHalf, addressOf_joinHalf]

end Sys2Proof

namespace Sys2Proof.Machine

/-! ### An operation that begins with a staged read -/

theorem readMemoryThen_outcome_of_lt {s : State} (h : s.mar < s.mem.size) (k : Word → State → Res) :
    (readMemoryThen s k).outcome = (k (s.mem.read s.mar) (s.setMbr (s.mem.read s.mar))).outcome := by
  rw [readMemoryThen_of_lt h]

/-- From N on the fault of the staged read is taken, whatever statements were to follow. -/
theorem readMemoryThen_outcome_of_le {s : State} (h : s.mem.size ≤ s.mar) (k : Word → State → Res) :
    (readMemoryThen s k).outcome = .next (s.takeFault (.addressOutOfRange s.mar)) := by
  rw [readMemoryThen_of_le h, Res.outcome_raised]

/-! ### The loads, case by case -/

theorem exec_loadMX_of_lt {s : State} (h : s.mar < s.mem.size) (x : Addr) :
    exec (.loadMX x) s = .next ((s.setMbr (s.mem.read s.mar)).setAc (some (s.mem.read s.mar))) :=
  readMemoryThen_outcome_of_lt h _

theorem exec_loadMX_of_le {s : State} (h : s.mem.size ≤ s.mar) (x : Addr) :
    exec (.loadMX x) s = .next (s.takeFault (.addressOutOfRange s.mar)) :=
  readMemoryThen_outcome_of_le h _

theorem exec_loadMqMX_of_lt {s : State} (h : s.mar < s.mem.size) (x : Addr) :
    exec (.loadMqMX x) s = .next ((s.setMbr (s.mem.read s.mar)).setMq (some (s.mem.read s.mar))) :=
  readMemoryThen_outcome_of_lt h _

theorem exec_loadMqMX_of_le {s : State} (h : s.mem.size ≤ s.mar) (x : Addr) :
    exec (.loadMqMX x) s = .next (s.takeFault (.addressOutOfRange s.mar)) :=
  readMemoryThen_outcome_of_le h _

/-! ### The obligations -/

/-- Settles O26: opcode 0x01 selects the row LOAD M(X), whose assignments after the staged read are MBR's and AC's. -/
theorem loadMxLoadsAccumulatorAndMbr : Obligations.LoadMxLoadsAccumulatorAndMbr := by
  intro x s
  have row : decode (joinHalf 0x01 x) = .loadMX x := decode_joinHalf 0x01 x
  exact ⟨row, fun inRange => exec_loadMX_of_lt inRange x, fun outOfRange => exec_loadMX_of_le outOfRange x⟩

/-- Settles O27: opcode 0x09 selects the row LOAD MQ,M(X), whose assignments after the staged read are MBR's and MQ's. -/
theorem loadMqMxLoadsMqAndMbr : Obligations.LoadMqMxLoadsMqAndMbr := by
  intro x s
  have row : decode (joinHalf 0x09 x) = .loadMqMX x := decode_joinHalf 0x09 x
  exact ⟨row, fun inRange => exec_loadMqMX_of_lt inRange x, fun outOfRange => exec_loadMqMX_of_le outOfRange x⟩

end Sys2Proof.Machine

/-! The decoder and the encoder undo each other (spec/30_encoding.md R71, R77, R78, R82, R86). -/

namespace Sys2Proof

/-! ### The row of an opcode -/

/-- Every well-formed instruction is the row of its own opcode. -/
theorem decodeFields_opcode_address {i : Instr} (h : i.wellFormed = true) : decodeFields i.opcode i.address = i := by
  cases i with
  | loadMX x => rfl
  | loadMqMX x => rfl
  | loadMq x => rfl
  | storMX x => rfl
  | addMX x => rfl
  | subMX x => rfl
  | other op x =>
    have unrecognized : op ∉ recognizedOpcodes := by simpa [Instr.wellFormed, isRecognized] using h
    exact decodeFields_of_not_recognized unrecognized x

/-- The row of `op` is well formed and has the opcode and the address it was selected with. -/
theorem decodeFields_spec (op : Opcode) (x : Addr) :
    (decodeFields op x).wellFormed = true ∧ (decodeFields op x).opcode = op ∧ (decodeFields op x).address = x := by
  by_cases recognized : op ∈ recognizedOpcodes
  · simp only [recognizedOpcodes, List.mem_cons, List.not_mem_nil, or_false] at recognized
    rcases recognized with rfl | rfl | rfl | rfl | rfl | rfl <;> exact ⟨rfl, rfl, rfl⟩
  · rw [decodeFields_of_not_recognized recognized]
    exact ⟨by simpa [Instr.wellFormed, isRecognized] using recognized, rfl, rfl⟩

@[simp] theorem decodeFields_wellFormed (op : Opcode) (x : Addr) : (decodeFields op x).wellFormed = true :=
  (decodeFields_spec op x).1

@[simp] theorem decodeFields_opcode (op : Opcode) (x : Addr) : (decodeFields op x).opcode = op :=
  (decodeFields_spec op x).2.1

@[simp] theorem decodeFields_address (op : Opcode) (x : Addr) : (decodeFields op x).address = x :=
  (decodeFields_spec op x).2.2

/-- A well-formed instruction is OTHER exactly when its opcode is none of the six. -/
theorem isOther_eq_not_isRecognized {i : Instr} (h : i.wellFormed = true) : i.isOther = !isRecognized i.opcode := by
  cases i with
  | loadMX x => rfl
  | loadMqMX x => rfl
  | loadMq x => rfl
  | storMX x => rfl
  | addMX x => rfl
  | subMX x => rfl
  | other op x => exact h.symm

theorem decode_isOther (ins : Half) : (decode ins).isOther = !isRecognized (opcodeOf ins) := by
  have := isOther_eq_not_isRecognized (decodeFields_wellFormed (opcodeOf ins) (addressOf ins))
  rwa [decodeFields_opcode] at this

/-! ### Decode and encode -/

theorem decode_encode {i : Instr} (h : i.wellFormed = true) : decode (encode i) = i :=
  (decode_joinHalf i.opcode i.address).trans (decodeFields_opcode_address h)

theorem encode_decode (ins : Half) : encode (decode ins) = ins := by
  rw [encode, decode, decodeFields_opcode, decodeFields_address, joinHalf_opcodeOf_addressOf]

/-- The two halves joined give the word (R77 (a)). -/
@[simp] theorem joinWord_leftOf_rightOf (w : Word) : joinWord (leftOf w) (rightOf w) = w := by
  apply BitVec.eq_of_toNat_eq
  rw [joinWord_toNat, leftOf_toNat, rightOf_toNat]
  omega

/-! ### The conversions -/

theorem toBits_of_lt {v W : Nat} (h : v < 2 ^ W) : toBits v W = some (BitVec.ofNat W v) := if_pos h

theorem toBits_of_le {v W : Nat} (h : 2 ^ W ≤ v) : toBits v W = none := if_neg (Nat.not_lt.mpr h)

theorem toInteger_ofNat {v W : Nat} (h : v < 2 ^ W) : toInteger (BitVec.ofNat W v) = v := by
  rw [toInteger, BitVec.toNat_ofNat, Nat.mod_eq_of_lt h]

theorem toBits_toInteger {W : Nat} (b : BitVec W) : toBits (toInteger b) W = some b := by
  rw [toInteger, toBits_of_lt b.isLt, BitVec.ofNat_toNat, BitVec.setWidth_eq]

/-! ### Inert words -/

theorem inertWord_iff (w : Word) :
    inertWord w = true ↔ isRecognized (opcodeOf (leftOf w)) = false ∧ isRecognized (opcodeOf (rightOf w)) = false := by
  simp [inertWord, decode_isOther]

/-- A value below 4096 lies in the address field of the right half, so both opcode fields are zero. -/
theorem opcodes_eq_zero_of_lt {w : Word} (h : w.toNat < 4096) :
    opcodeOf (leftOf w) = 0#8 ∧ opcodeOf (rightOf w) = 0#8 := by
  constructor <;> apply BitVec.eq_of_toNat_eq
  · rw [opcodeOf_toNat, leftOf_toNat, BitVec.toNat_ofNat]
    omega
  · rw [opcodeOf_toNat, rightOf_toNat, BitVec.toNat_ofNat]
    omega

theorem inertWord_of_lt {w : Word} (h : w.toNat < 4096) : inertWord w = true := by
  obtain ⟨left, right⟩ := opcodes_eq_zero_of_lt h
  rw [inertWord_iff, left, right]
  decide

/-! ### The obligations -/

/-- Settles O6: the fields of an encoding are the instruction's own, and the row of its opcode is the instruction; the
halves of the word that joins two encodings are those encodings. -/
theorem decodeOfEncodeIsTheInstruction : Obligations.DecodeOfEncodeIsTheInstruction := by
  refine ⟨fun i => decode_encode, fun l r wfLeft wfRight => ?_⟩
  rw [decodeWord, encodeWord, leftOf_joinWord, rightOf_joinWord, decode_encode wfLeft, decode_encode wfRight]

/-- Settles O7: the row an opcode selects carries that opcode and that address, and only an opcode outside
the six selects OTHER. -/
theorem encodeOfDecodeIsTheWord : Obligations.EncodeOfDecodeIsTheWord :=
  fun ins => ⟨decodeFields_wellFormed (opcodeOf ins) (addressOf ins), encode_decode ins⟩

/-- Settles O8: decoded instructions are well formed, so OTHER means an unrecognized opcode; below 4096 both
opcodes are zero. -/
theorem wordsBelow4096AreInert : Obligations.WordsBelow4096AreInert :=
  ⟨inertWord_iff, fun _ => inertWord_of_lt⟩

/-- Settles O2: the joins undo the slices; a half is below 2^20, so its opcode field is cut by no remainder. -/
theorem partsJoinedGiveTheWholeBack : Obligations.PartsJoinedGiveTheWholeBack := by
  refine ⟨joinWord_leftOf_rightOf, fun ins => ⟨joinHalf_opcodeOf_addressOf ins, ?_, ?_⟩⟩
  · have := ins.isLt
    rw [opcodeOf_toNat]
    omega
  · rw [addressOf_toNat, Nat.pow_zero, Nat.div_one]

/-- Settles O3: `toBits` answers exactly on the values that W bits hold. -/
theorem toIntegerAndToBitsRoundTrip : Obligations.ToIntegerAndToBitsRoundTrip :=
  ⟨fun _ _ h => ⟨_, toBits_of_lt h, toInteger_ofNat h⟩, fun _ => toBits_toInteger, fun _ _ => toBits_of_le⟩

/-- Settles O5: a check on fixed words, evaluated. -/
theorem sampleWordsDecode : Obligations.SampleWordsDecode := by
  unfold Obligations.SampleWordsDecode
  decide

end Sys2Proof

/-! Everything the operation of a phase can do, said once (spec/40_instruction_cycle.md R101 to R106): the statements about
steps and runs are derived from these two relations and do not unfold the machine again. -/

namespace Sys2Proof.Machine

/-! ### The execute phase of one instruction -/

/-- `Executes i s r`: executing `i` in `s` ends as `r`. One constructor for each way an instruction ends; the fault tests
come in the order of R159. -/
inductive Executes : Instr → State → Res → Prop
  | outOfRange {i : Instr} {s : State} (accesses : accessesMemory i = true) (range : s.mem.size ≤ s.mar) :
      Executes i s (.raised (.addressOutOfRange s.mar) s)
  | loadMX {s : State} (x : Addr) (range : s.mar < s.mem.size) :
      Executes (.loadMX x) s (.done ((s.setMbr (s.mem.read s.mar)).setAc (some (s.mem.read s.mar))))
  | loadMqMX {s : State} (x : Addr) (range : s.mar < s.mem.size) :
      Executes (.loadMqMX x) s (.done ((s.setMbr (s.mem.read s.mar)).setMq (some (s.mem.read s.mar))))
  | loadMq {s : State} (x : Addr) : Executes (.loadMq x) s (.done (s.setAc s.mq))
  | storMX {s : State} {w : Word} (x : Addr) (range : s.mar < s.mem.size) (mbr : s.mbr = some w) :
      Executes (.storMX x) s (.done (s.setMem (s.mem.write s.mar w)))
  | storMX_mbrUninitialized {s : State} (x : Addr) (range : s.mar < s.mem.size) (mbr : s.mbr = none) :
      Executes (.storMX x) s (.raised (.uninitializedRegister .mbr) s)
  | addMX {s : State} {a : Word} (x : Addr) (range : s.mar < s.mem.size) (ac : s.ac = some a)
      (bound : a.toNat + (s.mem.read s.mar).toNat < 2 ^ 40) :
      Executes (.addMX x) s (.done ((s.setMbr (s.mem.read s.mar)).setAc
        (some (BitVec.ofNat 40 (a.toNat + (s.mem.read s.mar).toNat)))))
  | addMX_acUninitialized {s : State} (x : Addr) (range : s.mar < s.mem.size) (ac : s.ac = none) :
      Executes (.addMX x) s (.raised (.uninitializedRegister .ac) (s.setMbr (s.mem.read s.mar)))
  | addMX_overflow {s : State} {a : Word} (x : Addr) (range : s.mar < s.mem.size) (ac : s.ac = some a)
      (bound : 2 ^ 40 ≤ a.toNat + (s.mem.read s.mar).toNat) :
      Executes (.addMX x) s
        (.raised (.overflow (a.toNat + (s.mem.read s.mar).toNat)) (s.setMbr (s.mem.read s.mar)))
  | subMX {s : State} (x : Addr) (range : s.mar < s.mem.size) :
      Executes (.subMX x) s (.done (s.setMbr (s.mem.read s.mar)))
  | other {s : State} (op : Opcode) (x : Addr) : Executes (.other op x) s (.done s)

/-! ### The staged write and the addition, case by case -/

theorem writeMemory_of_some {s : State} {w : Word} (range : s.mar < s.mem.size) (mbr : s.mbr = some w) :
    writeMemory s = .done (s.setMem (s.mem.write s.mar w)) := by
  simp [writeMemory, Nat.not_le.mpr range, mbr, memWrite_of_lt range]

theorem writeMemory_of_none {s : State} (range : s.mar < s.mem.size) (mbr : s.mbr = none) :
    writeMemory s = .raised (.uninitializedRegister .mbr) s := by
  simp [writeMemory, Nat.not_le.mpr range, mbr]

theorem writeMemory_of_le {s : State} (range : s.mem.size ≤ s.mar) :
    writeMemory s = .raised (.addressOutOfRange s.mar) s := if_pos range

theorem addOperand_of_none {s : State} (b : Word) (ac : s.ac = none) :
    addOperand b s = .raised (.uninitializedRegister .ac) s := by
  simp [addOperand, ac]

theorem boundResult_of_lt {n : Nat} (h : n < 2 ^ 40) : boundResult n = .ok (BitVec.ofNat 40 n) :=
  if_neg (Nat.not_le.mpr h)

theorem boundResult_of_le {n : Nat} (h : 2 ^ 40 ≤ n) : boundResult n = .error (.overflow n) := if_pos h

theorem addOperand_of_lt {s : State} {a b : Word} (ac : s.ac = some a) (bound : a.toNat + b.toNat < 2 ^ 40) :
    addOperand b s = .done (s.setAc (some (BitVec.ofNat 40 (a.toNat + b.toNat)))) := by
  simp only [addOperand, ac, addAbsolute_eq, boundResult_of_lt bound]

theorem addOperand_of_le {s : State} {a b : Word} (ac : s.ac = some a) (bound : 2 ^ 40 ≤ a.toNat + b.toNat) :
    addOperand b s = .raised (.overflow (a.toNat + b.toNat)) s := by
  simp only [addOperand, ac, addAbsolute_eq, boundResult_of_le bound]

/-! ### The relation and `exec` -/

/-- An instruction that accesses memory takes the fault of its bounds test before anything else. -/
theorem exec_of_le {i : Instr} {s : State} (accesses : accessesMemory i = true) (range : s.mem.size ≤ s.mar) :
    exec i s = .next (s.takeFault (.addressOutOfRange s.mar)) := by
  cases i with
  | loadMX x => exact exec_loadMX_of_le range x
  | loadMqMX x => exact exec_loadMqMX_of_le range x
  | loadMq x => cases accesses
  | storMX x => exact congrArg Res.outcome (writeMemory_of_le range)
  | addMX x => exact readMemoryThen_outcome_of_le range addOperand
  | subMX x => exact congrArg Res.outcome (readMemory_of_le range)
  | other op x => cases accesses

/-- Below N, ADD M(X) is the addition of the word read. -/
theorem exec_addMX_of_lt {s : State} (h : s.mar < s.mem.size) (x : Addr) {r : Res}
    (sum : addOperand (s.mem.read s.mar) (s.setMbr (s.mem.read s.mar)) = r) : exec (.addMX x) s = r.outcome :=
  (readMemoryThen_outcome_of_lt h addOperand).trans (congrArg Res.outcome sum)

/-- The outcome of `exec` is the one listed. -/
theorem Executes.exec_eq {i : Instr} {s : State} {r : Res} (h : Executes i s r) : exec i s = r.outcome := by
  cases h with
  | outOfRange accesses range => exact exec_of_le accesses range
  | loadMX x range => exact exec_loadMX_of_lt range x
  | loadMqMX x range => exact exec_loadMqMX_of_lt range x
  | loadMq x => rfl
  | storMX x range mbr => exact congrArg Res.outcome (writeMemory_of_some range mbr)
  | storMX_mbrUninitialized x range mbr => exact congrArg Res.outcome (writeMemory_of_none range mbr)
  | addMX x range ac bound => exact exec_addMX_of_lt range x (addOperand_of_lt (s := s.setMbr _) ac bound)
  | addMX_acUninitialized x range ac => exact exec_addMX_of_lt range x (addOperand_of_none (s := s.setMbr _) _ ac)
  | addMX_overflow x range ac bound => exact exec_addMX_of_lt range x (addOperand_of_le (s := s.setMbr _) ac bound)
  | subMX x range => exact congrArg Res.outcome (readMemory_of_lt range)
  | other op x => rfl

/-- Every instruction ends in every state, in one of the ways listed. -/
theorem exists_executes (i : Instr) (s : State) : ∃ r, Executes i s r := by
  by_cases outOfRange : accessesMemory i = true ∧ s.mem.size ≤ s.mar
  · exact ⟨_, .outOfRange outOfRange.1 outOfRange.2⟩
  have inRange (accesses : accessesMemory i = true) : s.mar < s.mem.size :=
    Nat.lt_of_not_le fun range => outOfRange ⟨accesses, range⟩
  cases i with
  | loadMX x => exact ⟨_, .loadMX x (inRange rfl)⟩
  | loadMqMX x => exact ⟨_, .loadMqMX x (inRange rfl)⟩
  | loadMq x => exact ⟨_, .loadMq x⟩
  | storMX x =>
    cases mbr : s.mbr with
    | none => exact ⟨_, .storMX_mbrUninitialized x (inRange rfl) mbr⟩
    | some w => exact ⟨_, .storMX x (inRange rfl) mbr⟩
  | addMX x =>
    cases ac : s.ac with
    | none => exact ⟨_, .addMX_acUninitialized x (inRange rfl) ac⟩
    | some a =>
      rcases Nat.lt_or_ge (a.toNat + (s.mem.read s.mar).toNat) (2 ^ 40) with bound | bound
      · exact ⟨_, .addMX x (inRange rfl) ac bound⟩
      · exact ⟨_, .addMX_overflow x (inRange rfl) ac bound⟩
  | subMX x => exact ⟨_, .subMX x (inRange rfl)⟩
  | other op x => exact ⟨_, .other op x⟩

/-- The state in which a raised fault has been taken. -/
def Res.taken : Res → State
  | .done u => u
  | .raised f u => u.takeFault f

theorem Res.outcome_eq (r : Res) : r.outcome = .next r.taken := by cases r <;> rfl

/-- What `exec` answers: the end of the instruction, with the fault it raised taken. -/
theorem exec_next_iff {i : Instr} {s t : State} : exec i s = .next t ↔ ∃ r, Executes i s r ∧ t = r.taken := by
  constructor
  · intro h
    obtain ⟨r, executes⟩ := exists_executes i s
    have := executes.exec_eq.symm.trans h
    rw [Res.outcome_eq] at this
    cases this
    exact ⟨r, executes, rfl⟩
  · rintro ⟨r, executes, rfl⟩
    rw [executes.exec_eq, Res.outcome_eq]

section
variable (r : Res)

@[simp] theorem Res.taken_pc : r.taken.pc = r.state.pc := by cases r <;> rfl
@[simp] theorem Res.taken_mar : r.taken.mar = r.state.mar := by cases r <;> rfl
@[simp] theorem Res.taken_mbr : r.taken.mbr = r.state.mbr := by cases r <;> rfl
@[simp] theorem Res.taken_ir : r.taken.ir = r.state.ir := by cases r <;> rfl
@[simp] theorem Res.taken_ibr : r.taken.ibr = r.state.ibr := by cases r <;> rfl
@[simp] theorem Res.taken_ac : r.taken.ac = r.state.ac := by cases r <;> rfl
@[simp] theorem Res.taken_mq : r.taken.mq = r.state.mq := by cases r <;> rfl
@[simp] theorem Res.taken_mem : r.taken.mem = r.state.mem := by cases r <;> rfl
@[simp] theorem Res.taken_phase : r.taken.phase = r.state.phase := by cases r <;> rfl

end

/-! ### What an instruction leaves alone -/

/-- No instruction changes PC, MAR, IR, IBR, the phase or the status; a fault it raises is not taken yet. -/
theorem Executes.frame {i : Instr} {s : State} {r : Res} (h : Executes i s r) :
    r.state.pc = s.pc ∧ r.state.mar = s.mar ∧ r.state.ir = s.ir ∧ r.state.ibr = s.ibr ∧
    r.state.phase = s.phase ∧ r.state.status = s.status := by
  cases h <;> exact ⟨rfl, rfl, rfl, rfl, rfl, rfl⟩

/-- Memory changes only when STOR M(X) writes MBR to M[MAR]. -/
theorem Executes.mem {i : Instr} {s : State} {r : Res} (h : Executes i s r) :
    r.state.mem = s.mem ∨ ∃ x w, i = .storMX x ∧ s.mar < s.mem.size ∧ s.mbr = some w ∧
      r.state.mem = s.mem.write s.mar w := by
  cases h with
  | storMX x range mbr => exact .inr ⟨x, _, rfl, range, mbr, rfl⟩
  | _ => exact .inl rfl

/-- A fault is raised before memory is written. -/
theorem Executes.mem_of_raised {i : Instr} {s u : State} {f : RunFault} (h : Executes i s (.raised f u)) :
    u.mem = s.mem := by
  cases h <;> rfl

theorem Executes.mem_size {i : Instr} {s : State} {r : Res} (h : Executes i s r) : r.state.mem.size = s.mem.size := by
  rcases h.mem with e | ⟨_, w, _, _, _, e⟩ <;> rw [e]
  exact s.mem.write_size s.mar w

/-! ### The two fetch phases -/

/-- The state in which `half` of M[PC] is staged, with the whole word in MBR and its right half in IBR. -/
def State.stageFetched (s : State) (half : Word → Half) : State :=
  (((s.setMbr (s.mem.read s.pc)).setIbr (rightOf (s.mem.read s.pc))).setIr (opcodeOf (half (s.mem.read s.pc)))).setMar
    (addressValue (half (s.mem.read s.pc)))

section
variable (s : State) (half : Word → Half)

@[simp] theorem State.stageFetched_pc : (s.stageFetched half).pc = s.pc := rfl
@[simp] theorem State.stageFetched_mar : (s.stageFetched half).mar = addressValue (half (s.mem.read s.pc)) := rfl
@[simp] theorem State.stageFetched_mbr : (s.stageFetched half).mbr = some (s.mem.read s.pc) := rfl
@[simp] theorem State.stageFetched_ir : (s.stageFetched half).ir = some (opcodeOf (half (s.mem.read s.pc))) := rfl
@[simp] theorem State.stageFetched_ibr : (s.stageFetched half).ibr = some (rightOf (s.mem.read s.pc)) := rfl
@[simp] theorem State.stageFetched_ac : (s.stageFetched half).ac = s.ac := rfl
@[simp] theorem State.stageFetched_mq : (s.stageFetched half).mq = s.mq := rfl
@[simp] theorem State.stageFetched_mem : (s.stageFetched half).mem = s.mem := rfl
@[simp] theorem State.stageFetched_phase : (s.stageFetched half).phase = s.phase := rfl
@[simp] theorem State.stageFetched_status : (s.stageFetched half).status = s.status := rfl

end

theorem fetchLeft_eq_stageFetched {s : State} (h : s.pc < s.mem.size) : fetchLeft s = .done (s.stageFetched leftOf) :=
  fetchLeft_of_lt h

theorem fetchRight_eq_stageFetched {s : State} (h : s.pc < s.mem.size) :
    fetchRight s = .done ((s.stageFetched rightOf).setPc (s.pc + 1)) :=
  fetchRight_of_lt h

/-! ### The operation of a phase -/

/-- `Performs s r`: the operation of the phase that is next in `s` ends as `r`. -/
inductive Performs (s : State) : Res → Prop
  | fetchLeft (phase : s.phase = .fetchLeft) (range : s.pc < s.mem.size) : Performs s (.done (s.stageFetched leftOf))
  | fetchRight (phase : s.phase = .fetchRight) (range : s.pc < s.mem.size) :
      Performs s (.done ((s.stageFetched rightOf).setPc (s.pc + 1)))
  | fetchOutOfRange (phase : ¬ InExecute s) (range : s.mem.size ≤ s.pc) :
      Performs s (.raised (.addressOutOfRange s.pc) (s.setMar s.pc))
  | irUninitialized (phase : InExecute s) (ir : s.ir = none) : Performs s (.raised (.uninitializedRegister .ir) s)
  | execute {op : Opcode} {r : Res} (phase : InExecute s) (ir : s.ir = some op)
      (executes : Executes (stagedInstr op s.mar) s r) : Performs s r

theorem phaseOperation_of_inExecute {s : State} (h : InExecute s) : phaseOperation s = execute s := by
  rcases h with h | h <;> simp [phaseOperation, h]

theorem phaseOperation_of_fetchLeft {s : State} (h : s.phase = .fetchLeft) :
    phaseOperation s = (fetchLeft s).outcome := by
  simp [phaseOperation, h]

theorem phaseOperation_of_fetchRight {s : State} (h : s.phase = .fetchRight) :
    phaseOperation s = (fetchRight s).outcome := by
  simp [phaseOperation, h]

/-- A phase is FETCH_LEFT, FETCH_RIGHT or an execute phase. -/
theorem phase_cases (s : State) : s.phase = .fetchLeft ∨ s.phase = .fetchRight ∨ InExecute s := by
  cases h : s.phase <;> simp [InExecute, h]

theorem not_inExecute_of_fetchLeft {s : State} (h : s.phase = .fetchLeft) : ¬ InExecute s := by simp [InExecute, h]

theorem not_inExecute_of_fetchRight {s : State} (h : s.phase = .fetchRight) : ¬ InExecute s := by simp [InExecute, h]

/-- The outcome of a phase's operation is the one listed. -/
theorem Performs.phaseOperation_eq {s : State} {r : Res} (h : Performs s r) : phaseOperation s = r.outcome := by
  cases h with
  | fetchLeft phase range =>
    rw [phaseOperation_of_fetchLeft phase, fetchLeft_eq_stageFetched range]
  | fetchRight phase range =>
    rw [phaseOperation_of_fetchRight phase, fetchRight_eq_stageFetched range]
  | fetchOutOfRange phase range =>
    rcases phase_cases s with left | right | exec
    · rw [phaseOperation_of_fetchLeft left, fetchLeft_of_le range]
    · rw [phaseOperation_of_fetchRight right, fetchRight_of_le range]
    · exact absurd exec phase
  | irUninitialized phase ir => rw [phaseOperation_of_inExecute phase, execute_none ir, Res.outcome_raised]
  | execute phase ir executes => rw [phaseOperation_of_inExecute phase, execute_some ir, executes.exec_eq]

/-- Every phase's operation ends in every state, in one of the ways listed. -/
theorem exists_performs (s : State) : ∃ r, Performs s r := by
  rcases phase_cases s with left | right | exec
  · rcases Nat.lt_or_ge s.pc s.mem.size with range | range
    · exact ⟨_, .fetchLeft left range⟩
    · exact ⟨_, .fetchOutOfRange (not_inExecute_of_fetchLeft left) range⟩
  · rcases Nat.lt_or_ge s.pc s.mem.size with range | range
    · exact ⟨_, .fetchRight right range⟩
    · exact ⟨_, .fetchOutOfRange (not_inExecute_of_fetchRight right) range⟩
  · cases ir : s.ir with
    | none => exact ⟨_, .irUninitialized exec ir⟩
    | some op =>
      obtain ⟨r, executes⟩ := exists_executes (stagedInstr op s.mar) s
      exact ⟨r, .execute exec ir executes⟩

/-- The operation of a phase sets neither phase nor status; those are the sequencer's. -/
theorem Performs.phase_status {s : State} {r : Res} (h : Performs s r) :
    r.state.phase = s.phase ∧ r.state.status = s.status := by
  cases h with
  | execute phase ir executes =>
    obtain ⟨-, -, -, -, samePhase, sameStatus⟩ := executes.frame
    exact ⟨samePhase, sameStatus⟩
  | _ => exact ⟨rfl, rfl⟩

theorem Performs.mem_size {s : State} {r : Res} (h : Performs s r) : r.state.mem.size = s.mem.size := by
  cases h with
  | execute phase ir executes => exact executes.mem_size
  | _ => rfl

/-! ### A step -/

/-- What the sequencer makes of the end of a phase: it advances, or it leaves the fault taken. -/
def Res.sequenced : Res → State
  | .done u => advance u
  | .raised f u => u.takeFault f

theorem sequencer_outcome {r : Res} (h : r.state.status = .running) : sequencer r.outcome = .next r.sequenced := by
  cases r with
  | done u =>
    have running : u.status = .running := h
    simp [running, Res.sequenced]
  | raised f u => simp [Res.sequenced, State.isRunning]

theorem Performs.step_eq {s : State} {r : Res} (h : Performs s r) (running : s.status = .running) :
    step s = .next r.sequenced := by
  rw [step_running running, h.phaseOperation_eq, sequencer_outcome (h.phase_status.2.trans running)]

/-- Everything a step can do: the status was RUNNING, and the phase's operation ended in one of the ways listed. -/
theorem step_next_iff {s t : State} :
    step s = .next t ↔ s.status = .running ∧ ∃ r, Performs s r ∧ t = r.sequenced := by
  constructor
  · intro h
    have running := running_of_step_next h
    obtain ⟨r, performs⟩ := exists_performs s
    refine ⟨running, r, performs, ?_⟩
    have := (performs.step_eq running).symm.trans h
    simpa [eq_comm] using this
  · rintro ⟨running, r, performs, rfl⟩
    exact performs.step_eq running

section
variable (s : State)

@[simp] theorem advance_mar : (advance s).mar = s.mar := by rw [advance_eq]; rfl
@[simp] theorem advance_mbr : (advance s).mbr = s.mbr := by rw [advance_eq]; rfl
@[simp] theorem advance_ir : (advance s).ir = s.ir := by rw [advance_eq]; rfl
@[simp] theorem advance_ibr : (advance s).ibr = s.ibr := by rw [advance_eq]; rfl
@[simp] theorem advance_ac : (advance s).ac = s.ac := by rw [advance_eq]; rfl
@[simp] theorem advance_mq : (advance s).mq = s.mq := by rw [advance_eq]; rfl
@[simp] theorem advance_mem : (advance s).mem = s.mem := by rw [advance_eq]; rfl
@[simp] theorem advance_phase : (advance s).phase = s.phase.succ := by rw [advance_eq]; rfl
@[simp] theorem advance_status :
    (advance s).status = if s.phase = .execRight ∧ s.pc = s.mem.size then .done else s.status := by
  rw [advance_eq, State.setStatus_status]

end

end Sys2Proof.Machine

/-! A step and what it keeps: the order of the phases, the end of the run, stickiness, the canonical form of memory
(spec/40_instruction_cycle.md R101, R109; spec/60_exceptions.md R157; spec/10_state.md R33). -/

namespace Sys2Proof.Machine

/-- A step is a phase that is done, and then the sequencer's advance, or a fault that is taken. -/
theorem step_done_or_raised {s t : State} (h : step s = .next t) :
    (∃ u, Performs s (.done u) ∧ t = advance u) ∨ ∃ f u, Performs s (.raised f u) ∧ t = u.takeFault f := by
  obtain ⟨_, r, performs, rfl⟩ := step_next_iff.1 h
  cases r with
  | done u => exact .inl ⟨u, performs, rfl⟩
  | raised f u => exact .inr ⟨f, u, performs, rfl⟩

/-! ### What the sequencer keeps -/

section
variable (r : Res)

@[simp] theorem Res.sequenced_pc : r.sequenced.pc = r.state.pc := by
  cases r <;> simp [Res.sequenced, Res.state, advance_pc]
@[simp] theorem Res.sequenced_mar : r.sequenced.mar = r.state.mar := by cases r <;> simp [Res.sequenced, Res.state]
@[simp] theorem Res.sequenced_mbr : r.sequenced.mbr = r.state.mbr := by cases r <;> simp [Res.sequenced, Res.state]
@[simp] theorem Res.sequenced_ir : r.sequenced.ir = r.state.ir := by cases r <;> simp [Res.sequenced, Res.state]
@[simp] theorem Res.sequenced_ibr : r.sequenced.ibr = r.state.ibr := by cases r <;> simp [Res.sequenced, Res.state]
@[simp] theorem Res.sequenced_ac : r.sequenced.ac = r.state.ac := by cases r <;> simp [Res.sequenced, Res.state]
@[simp] theorem Res.sequenced_mq : r.sequenced.mq = r.state.mq := by cases r <;> simp [Res.sequenced, Res.state]
@[simp] theorem Res.sequenced_mem : r.sequenced.mem = r.state.mem := by cases r <;> simp [Res.sequenced, Res.state]

end

/-! ### Memory -/

theorem Executes.mem_wf {i : Instr} {s : State} {r : Res} (h : Executes i s r) (wf : s.mem.wf = true) :
    r.state.mem.wf = true := by
  rcases h.mem with e | ⟨_, w, _, range, _, e⟩ <;> rw [e]
  · exact wf
  · exact Memory.wf_write w range wf

theorem Performs.mem_wf {s : State} {r : Res} (h : Performs s r) (wf : s.mem.wf = true) : r.state.mem.wf = true := by
  cases h with
  | execute _ _ executes => exact executes.mem_wf wf
  | _ => exact wf

theorem step_mem_wf {s t : State} (wf : s.mem.wf = true) (h : step s = .next t) : t.mem.wf = true := by
  obtain ⟨_, r, performs, rfl⟩ := step_next_iff.1 h
  rw [Res.sequenced_mem]
  exact performs.mem_wf wf

theorem step_mem_size {s t : State} (h : step s = .next t) : t.mem.size = s.mem.size := by
  obtain ⟨_, r, performs, rfl⟩ := step_next_iff.1 h
  rw [Res.sequenced_mem]
  exact performs.mem_size

/-! ### Phase and status -/

/-- After a phase that is done, the phase is the following one, and the status is DONE exactly at the end of the run. -/
theorem Performs.advance_phase_status {s u : State} (running : s.status = .running) (h : Performs s (.done u)) :
    (advance u).phase = s.phase.succ ∧
    (advance u).status = if s.phase = .execRight ∧ (advance u).pc = (advance u).mem.size then .done else .running := by
  obtain ⟨samePhase, sameStatus⟩ : u.phase = s.phase ∧ u.status = s.status := h.phase_status
  rw [advance_phase, advance_status, advance_pc, advance_mem, samePhase, sameStatus, running]
  exact ⟨rfl, rfl⟩

/-- A step into FAULTED is a fault that was raised. -/
theorem raised_of_step_faulted {s t : State} {f : RunFault} (h : step s = .next t) (faulted : t.status = .faulted f) :
    ∃ u, Performs s (.raised f u) ∧ t = u.takeFault f := by
  rcases step_done_or_raised h with ⟨u, performs, rfl⟩ | ⟨g, u, performs, rfl⟩
  · rw [(performs.advance_phase_status (running_of_step_next h)).2] at faulted
    split at faulted <;> cases faulted
  · cases faulted
    exact ⟨u, performs, rfl⟩

/-- A step into RUNNING or DONE is a phase that was done. -/
theorem done_of_step_not_faulted {s t : State} (h : step s = .next t) (fine : t.FaultFree) :
    ∃ u, Performs s (.done u) ∧ t = advance u := by
  rcases step_done_or_raised h with done | ⟨f, u, _, rfl⟩
  · exact done
  · exact absurd rfl (fine f)

theorem step_phase_of_faulted {s t : State} {f : RunFault} (h : step s = .next t) (faulted : t.status = .faulted f) :
    t.phase = s.phase := by
  obtain ⟨u, performs, rfl⟩ := raised_of_step_faulted h faulted
  exact performs.phase_status.1

theorem faultFree_of_running {s : State} (h : s.status = .running) : s.FaultFree := by simp [State.FaultFree, h]

theorem faultFree_of_done {s : State} (h : s.status = .done) : s.FaultFree := by simp [State.FaultFree, h]

/-! ### States that have no step -/

theorem step_of_done {s : State} (h : s.status = .done) : step s = .fault .runDone := by
  simp [step, stepOnce, h]

theorem step_of_faulted {s : State} {f : RunFault} (h : s.status = .faulted f) : step s = .fault (.runFaulted f) := by
  simp [step, stepOnce, h]

/-- A run goes no further from a state whose step answers a fault. -/
theorem runFor_of_fault {s : State} {f : Fault} (h : step s = .fault f) (k : Nat) : runFor k s = s := by
  cases k with
  | zero => rfl
  | succ k => simp [runFor, h]

/-! ### The obligations -/

/-- Settles O24: in RUNNING the operation of every phase ends in some way, and the sequencer makes a next state of it. -/
theorem stepAnswersExactlyWhileRunning : Obligations.StepAnswersExactlyWhileRunning := by
  refine fun s => ⟨fun running => ?_, step_of_done, fun f => step_of_faulted⟩
  obtain ⟨r, performs⟩ := exists_performs s
  exact ⟨r.sequenced, performs.step_eq running⟩

/-- Settles O23: a phase that is done advances, with DONE at the end of the last word cycle; a fault keeps the phase. -/
theorem phasesAdvanceInOrderUntilPcIsN : Obligations.PhasesAdvanceInOrderUntilPcIsN := by
  intro s t running h
  refine ⟨fun stays => ?_, fun ends => ?_, fun f => step_phase_of_faulted h⟩
  · obtain ⟨u, performs, rfl⟩ := done_of_step_not_faulted h (faultFree_of_running stays)
    obtain ⟨following, status⟩ := performs.advance_phase_status running
    refine ⟨following, fun last => ?_⟩
    rw [status, if_pos last] at stays
    cases stays
  · obtain ⟨u, performs, rfl⟩ := done_of_step_not_faulted h (faultFree_of_done ends)
    obtain ⟨following, status⟩ := performs.advance_phase_status running
    have last : s.phase = .execRight ∧ (advance u).pc = (advance u).mem.size := by
      by_contra notLast
      rw [status, if_neg notLast] at ends
      cases ends
    exact ⟨by rw [following, last.1]; rfl, last⟩

/-- Settles O39: fault entry leaves the phase, and FAULTED has no transition. -/
theorem aTakenFaultKeepsThePhaseAndIsSticky : Obligations.ATakenFaultKeepsThePhaseAndIsSticky :=
  fun _ _ _ h faulted =>
    ⟨step_phase_of_faulted h faulted, step_of_faulted faulted, runFor_of_fault (step_of_faulted faulted)⟩

/-- Settles O42: the one write of a step, STOR's, is below N, and a write below N keeps the canonical form and
the length. -/
theorem stepKeepsMemoryCanonicalAndItsLength : Obligations.StepKeepsMemoryCanonicalAndItsLength :=
  fun _ _ wf h => ⟨step_mem_wf wf h, step_mem_size h⟩

end Sys2Proof.Machine

/-! The invariant of a driven run (spec/10_state.md R34, R35; spec/40_instruction_cycle.md R107, R109, R111;
spec/60_exceptions.md R156 to R158): it is kept by every step, and every step counts one phase. The key fact is that an
execute phase leaves the word of its own slot as it was: STOR M(X) writes MBR, which is that word. -/

namespace Sys2Proof.Machine

/-- The half of the slot's word that the next phase fetches or executes (R100). -/
def halfOf (s : State) : Word → Half :=
  match s.phase with
  | .fetchLeft => leftOf
  | .execLeft => leftOf
  | .fetchRight => rightOf
  | .execRight => rightOf

/-! ### The parts of the invariant, by status and phase -/

theorem statusInv_of_running {s : State} (h : s.status = .running) : StatusInv s ↔ RunningInv s := by
  simp [StatusInv, h]

theorem statusInv_of_done {s : State} (h : s.status = .done) :
    StatusInv s ↔ s.pc = s.mem.size ∧ s.phase = .fetchLeft := by
  simp [StatusInv, h]

theorem statusInv_of_faulted {s : State} {f : RunFault} (h : s.status = .faulted f) :
    StatusInv s ↔ FaultedInv s f := by
  simp [StatusInv, h]

theorem runningInv_of_fetchLeft {s : State} (h : s.phase = .fetchLeft) : RunningInv s ↔ s.pc < s.mem.size := by
  simp [RunningInv, h]

theorem runningInv_of_fetchRight {s : State} (h : s.phase = .fetchRight) :
    RunningInv s ↔ s.pc < s.mem.size ∧ s.ibr = some (rightOf (s.mem.read s.pc)) := by
  simp [RunningInv, h]

theorem runningInv_of_execLeft {s : State} (h : s.phase = .execLeft) : RunningInv s ↔ StagedFrom s s.pc leftOf := by
  simp [RunningInv, h]

theorem runningInv_of_execRight {s : State} (h : s.phase = .execRight) :
    RunningInv s ↔ 0 < s.pc ∧ StagedFrom s (s.pc - 1) rightOf := by
  simp [RunningInv, h]

/-- The same, for either execute phase. -/
theorem runningInv_of_inExecute {s : State} (h : InExecute s) :
    RunningInv s ↔ (s.phase = .execRight → 0 < s.pc) ∧ StagedFrom s (slotOf s) (halfOf s) := by
  rcases h with h | h <;> simp [RunningInv, slotOf, halfOf, h]

theorem faultedInv_of_inExecute {s : State} {f : RunFault} (h : InExecute s) :
    FaultedInv s f ↔
      (s.phase = .execRight → 0 < s.pc) ∧ FetchedFrom s (slotOf s) (halfOf s) ∧ FaultInv s (slotOf s) f := by
  rcases h with h | h <;> simp [FaultedInv, slotOf, halfOf, h]

/-- PC of a fetch phase of a driven run is below N, so its read does not fault. -/
theorem Inv.pc_lt {s : State} (inv : Inv s) (running : s.status = .running) (fetch : ¬ InExecute s) :
    s.pc < s.mem.size := by
  obtain ⟨_, _, _, statusInv⟩ := inv
  rw [statusInv_of_running running] at statusInv
  rcases phase_cases s with left | right | exec
  · exact (runningInv_of_fetchLeft left).1 statusInv
  · exact ((runningInv_of_fetchRight right).1 statusInv).1
  · exact absurd exec fetch

/-- What an execute phase of a driven run finds (R107). -/
theorem Inv.staged {s : State} (inv : Inv s) (running : s.status = .running) (exec : InExecute s) :
    (s.phase = .execRight → 0 < s.pc) ∧ StagedFrom s (slotOf s) (halfOf s) := by
  obtain ⟨_, _, _, statusInv⟩ := inv
  exact (runningInv_of_inExecute exec).1 ((statusInv_of_running running).1 statusInv)

/-! ### The fetch phases stage what the execute phases find -/

theorem addressValue_lt (ins : Half) : addressValue ins < 4096 := (addressOf ins).isLt

theorem stagedFrom_stageFetched {s : State} (range : s.pc < s.mem.size) (half : Word → Half) :
    StagedFrom (s.stageFetched half) s.pc half := ⟨⟨range, rfl, rfl, rfl⟩, rfl⟩

/-- The sequencer keeps everything that a staged slot is read from. -/
theorem stagedFrom_advance {u : State} {k : Nat} {half : Word → Half} (h : StagedFrom u k half) :
    StagedFrom (advance u) k half := by
  simpa [StagedFrom, FetchedFrom, Stages] using h

/-! ### An execute phase -/

/-- STOR M(X) of a driven run writes the word of its own slot, so an execute phase leaves that word alone. -/
theorem Executes.read_slot {i : Instr} {s : State} {r : Res} {k : Nat} (h : Executes i s r)
    (mbr : s.mbr = some (s.mem.read k)) : r.state.mem.read k = s.mem.read k := by
  rcases h.mem with e | ⟨_, w, _, _, stored, e⟩ <;> rw [e]
  obtain rfl : w = s.mem.read k := Option.some.inj (stored.symm.trans mbr)
  by_cases own : k = s.mar
  · rw [own, Memory.read_write_same]
  · exact s.mem.read_write_other own _

theorem opcode_mem_accessingOpcodes {i : Instr} (h : accessesMemory i = true) : i.opcode ∈ accessingOpcodes := by
  cases i with
  | loadMq x => cases h
  | other op x => cases h
  | _ => simp [Instr.opcode, accessingOpcodes]

/-- A fault raised where MBR is the word of slot `k` has the cause and leaves the registers that R153 to R158 tabulate. -/
theorem Executes.faultInv {i : Instr} {s u : State} {f : RunFault} {k : Nat} (h : Executes i s (.raised f u))
    (ir : s.ir = some i.opcode) (mbr : s.mbr = some (s.mem.read k)) : FaultInv (u.takeFault f) k f := by
  cases h with
  | outOfRange accesses range => exact ⟨rfl, range, mbr, _, opcode_mem_accessingOpcodes accesses, ir⟩
  | storMX_mbrUninitialized x range bottom => exact absurd (bottom.symm.trans mbr) (by simp)
  | addMX_acUninitialized x range ac => exact ⟨rfl, ir, range, rfl, ac⟩
  | addMX_overflow x range ac bound => exact ⟨ir, range, rfl, bound, _, ac, rfl⟩

@[simp] theorem stagedInstr_opcode (op : Opcode) (mar : Nat) : (stagedInstr op mar).opcode = op :=
  decodeFields_opcode op _

/-! ### The invariant at the end of a phase -/

/-- In a driven run no fetch faults and IR is initialized, so a phase fetches, or it executes the row of IR, which is well
formed. -/
theorem Performs.driven_cases {s : State} {r : Res} (h : Performs s r) (inv : Inv s) (running : s.status = .running) :
    (s.phase = .fetchLeft ∧ r = .done (s.stageFetched leftOf)) ∨
    (s.phase = .fetchRight ∧ r = .done ((s.stageFetched rightOf).setPc (s.pc + 1))) ∨
    (InExecute s ∧ ∃ i : Instr, i.wellFormed = true ∧ s.ir = some i.opcode ∧ Executes i s r) := by
  cases h with
  | fetchLeft phase range => exact .inl ⟨phase, rfl⟩
  | fetchRight phase range => exact .inr (.inl ⟨phase, rfl⟩)
  | fetchOutOfRange phase range => exact absurd (inv.pc_lt running phase) (Nat.not_lt.mpr range)
  | irUninitialized phase bottom =>
    obtain ⟨_, ⟨_, _, ir, _⟩, _⟩ := inv.staged running phase
    exact absurd (bottom.symm.trans ir) (by simp)
  | @execute op _ phase ir executes =>
    have opcode : s.ir = some (stagedInstr op s.mar).opcode := by rw [ir, stagedInstr_opcode]
    exact .inr (.inr ⟨phase, _, decodeFields_wellFormed op _, opcode, executes⟩)

theorem Performs.mar_lt {s : State} {r : Res} (h : Performs s r) (inv : Inv s) (running : s.status = .running) :
    r.state.mar < 4096 := by
  rcases h.driven_cases inv running with ⟨_, rfl⟩ | ⟨_, rfl⟩ | ⟨_, i, _, _, executes⟩
  · exact addressValue_lt _
  · exact addressValue_lt _
  · obtain ⟨_, sameMar, _⟩ := executes.frame
    obtain ⟨_, _, marLt, _⟩ := inv
    exact sameMar ▸ marLt

/-- After FETCH_LEFT an execute phase finds the left half of the word staged. -/
theorem statusInv_fetchLeft {s : State} (running : s.status = .running) (phase : s.phase = .fetchLeft)
    (range : s.pc < s.mem.size) : StatusInv (advance (s.stageFetched leftOf)) := by
  rw [statusInv_of_running (by simp [phase, running]), runningInv_of_execLeft (by simp [phase, Phase.succ]), advance_pc]
  exact stagedFrom_advance (stagedFrom_stageFetched range leftOf)

/-- After FETCH_RIGHT an execute phase finds the right half staged, of the slot that PC has just left. -/
theorem statusInv_fetchRight {s : State} (running : s.status = .running) (phase : s.phase = .fetchRight)
    (range : s.pc < s.mem.size) : StatusInv (advance ((s.stageFetched rightOf).setPc (s.pc + 1))) := by
  have staged : StagedFrom ((s.stageFetched rightOf).setPc (s.pc + 1)) s.pc rightOf :=
    stagedFrom_stageFetched range rightOf
  rw [statusInv_of_running (by simp [phase, running]), runningInv_of_execRight (by simp [phase, Phase.succ]), advance_pc]
  exact ⟨Nat.succ_pos s.pc, stagedFrom_advance staged⟩

/-- After EXEC_LEFT, FETCH_RIGHT finds the slot in range and its right half still in IBR; after EXEC_RIGHT, FETCH_LEFT
finds the next slot in range, or the run has ended. -/
theorem statusInv_execute {s u : State} {i : Instr} (inv : Inv s) (running : s.status = .running) (exec : InExecute s)
    (executes : Executes i s (.done u)) : StatusInv (advance u) := by
  obtain ⟨_, ⟨range, ibr, _⟩, mbr⟩ := inv.staged running exec
  obtain ⟨samePc, _, _, sameIbr, samePhase, sameStatus⟩ := executes.frame
  have sameSize := executes.mem_size
  have sameWord := executes.read_slot mbr
  simp only [Res.state] at samePc sameIbr samePhase sameStatus sameSize sameWord
  rcases exec with left | right
  · have slot : slotOf s = s.pc := by simp [slotOf, left]
    rw [slot] at range ibr sameWord
    rw [statusInv_of_running (by simp [samePhase, left, sameStatus, running]),
      runningInv_of_fetchRight (by simp [samePhase, left, Phase.succ])]
    rw [advance_pc, advance_mem, advance_ibr, samePc, sameSize, sameIbr, sameWord]
    exact ⟨range, ibr⟩
  · have nextPhase : (advance u).phase = .fetchLeft := by simp [samePhase, right, Phase.succ]
    by_cases last : s.pc = s.mem.size
    · rw [statusInv_of_done (by simp [samePhase, right, samePc, sameSize, last])]
      exact ⟨by rw [advance_pc, advance_mem, samePc, sameSize, last], nextPhase⟩
    · rw [statusInv_of_running (by simp [samePc, sameSize, last, sameStatus, running]), runningInv_of_fetchLeft nextPhase,
        advance_pc, advance_mem, samePc, sameSize]
      obtain ⟨_, pcLe, _⟩ := inv
      omega

/-- A fault of an execute phase leaves PC and the staged instruction, with the cause and the registers tabulated. -/
theorem statusInv_raised {s u : State} {f : RunFault} {i : Instr} (inv : Inv s) (running : s.status = .running)
    (exec : InExecute s) (ir : s.ir = some i.opcode) (executes : Executes i s (.raised f u)) :
    StatusInv (u.takeFault f) := by
  obtain ⟨pcPos, fetched, mbr⟩ := inv.staged running exec
  obtain ⟨samePc, sameMar, sameIr, sameIbr, samePhase, _⟩ := executes.frame
  have sameMem := executes.mem_of_raised
  simp only [Res.state] at samePc sameMar sameIr sameIbr samePhase
  have sameSlot : slotOf (u.takeFault f) = slotOf s := by simp [slotOf, samePhase, samePc]
  have sameHalf : halfOf (u.takeFault f) = halfOf s := by simp [halfOf, samePhase]
  have stillExec : InExecute (u.takeFault f) := by simpa [InExecute, samePhase] using exec
  rw [statusInv_of_faulted (State.takeFault_status u f), faultedInv_of_inExecute stillExec, sameSlot, sameHalf]
  refine ⟨by simpa [samePhase, samePc] using pcPos, ?_, executes.faultInv ir mbr⟩
  simpa [FetchedFrom, Stages, sameMem, sameIbr, sameIr, sameMar] using fetched

theorem Performs.statusInv {s : State} {r : Res} (h : Performs s r) (inv : Inv s) (running : s.status = .running) :
    StatusInv r.sequenced := by
  rcases h.driven_cases inv running with ⟨phase, rfl⟩ | ⟨phase, rfl⟩ | ⟨exec, i, _, ir, executes⟩
  · exact statusInv_fetchLeft running phase (inv.pc_lt running (not_inExecute_of_fetchLeft phase))
  · exact statusInv_fetchRight running phase (inv.pc_lt running (not_inExecute_of_fetchRight phase))
  · cases r with
    | done u => exact statusInv_execute inv running exec executes
    | raised f u => exact statusInv_raised inv running exec ir executes

theorem inv_step {s t : State} (inv : Inv s) (h : step s = .next t) : Inv t := by
  obtain ⟨running, r, performs, rfl⟩ := step_next_iff.1 h
  have ⟨wf, pcLe, _, _⟩ := inv
  refine ⟨step_mem_wf wf h, ?_, ?_, performs.statusInv inv running⟩
  · rw [step_pc h, step_mem_size h]
    split <;> omega
  · rw [Res.sequenced_mar]
    exact performs.mar_lt inv running

/-! ### The count of phases -/

/-- In RUNNING the slot in progress is one of the N. -/
theorem phasesDone_lt_of_running {s : State} (inv : Inv s) (running : s.status = .running) :
    phasesDone s < 4 * s.mem.size := by
  rcases phase_cases s with phase | phase | exec
  · have := inv.pc_lt running (not_inExecute_of_fetchLeft phase)
    simp only [phasesDone, phase]
    omega
  · have := inv.pc_lt running (not_inExecute_of_fetchRight phase)
    simp only [phasesDone, phase]
    omega
  · obtain ⟨_, ⟨range, _⟩, _⟩ := inv.staged running exec
    rcases exec with phase | phase <;> simp only [slotOf, phase] at range <;> simp only [phasesDone, phase] <;> omega

theorem phasesDone_of_done {s : State} (inv : Inv s) (done : s.status = .done) : phasesDone s = 4 * s.mem.size := by
  obtain ⟨_, _, _, statusInv⟩ := inv
  obtain ⟨pcEq, phase⟩ := (statusInv_of_done done).1 statusInv
  simp only [phasesDone, phase, pcEq]

/-- A phase that is done is one more. -/
theorem phasesDone_step {s t : State} (inv : Inv s) (h : step s = .next t) (fine : t.FaultFree) :
    phasesDone t = phasesDone s + 1 := by
  have running := running_of_step_next h
  have pc := step_pc h
  obtain ⟨u, performs, rfl⟩ := done_of_step_not_faulted h fine
  have nextPhase := (performs.advance_phase_status running).1
  cases phase : s.phase with
  | fetchLeft => simp [phasesDone, nextPhase, pc, phase, Phase.succ, -advance_phase]
  | execLeft => simp [phasesDone, nextPhase, pc, phase, Phase.succ, -advance_phase]
  | fetchRight =>
    have range := inv.pc_lt running (not_inExecute_of_fetchRight phase)
    simp [phasesDone, nextPhase, pc, phase, Phase.succ, range, -advance_phase]
  | execRight =>
    have pcPos := (inv.staged running (.inr phase)).1 phase
    have samePc : (advance u).pc = s.pc := by simpa [phase] using pc
    simp only [phasesDone, nextPhase, samePc, phase, Phase.succ]
    omega

/-- A fault leaves the count at the phase that took it. -/
theorem phasesDone_step_faulted {s t : State} {f : RunFault} (inv : Inv s) (h : step s = .next t)
    (faulted : t.status = .faulted f) : phasesDone t = phasesDone s := by
  have samePhase := step_phase_of_faulted h faulted
  have samePc : t.pc = s.pc := by
    obtain ⟨u, performs, rfl⟩ := raised_of_step_faulted h faulted
    rcases performs.driven_cases inv (running_of_step_next h) with ⟨_, e⟩ | ⟨_, e⟩ | ⟨_, i, _, _, executes⟩
    · cases e
    · cases e
    · exact executes.frame.1
  simp only [phasesDone, samePhase, samePc]

/-! ### Reset -/

theorem inv_start {m : Memory} (wf : m.wf = true) : Inv (State.start m) := by
  refine ⟨wf, Nat.zero_le _, by simp [State.start], ?_⟩
  by_cases nonempty : 0 < m.size
  · have running : (State.start m).status = .running := if_pos nonempty
    exact (statusInv_of_running running).2 ((runningInv_of_fetchLeft rfl).2 nonempty)
  · have done : (State.start m).status = .done := if_neg nonempty
    exact (statusInv_of_done done).2 ⟨(Nat.eq_zero_of_not_pos nonempty).symm, rfl⟩

theorem inv_resetFor {image : List Word} (h : image.length ≤ 4096) : Inv (State.resetFor image) :=
  inv_start (Memory.wf_ofImage h)

/-- The memory of `State.reset` lists no word, so it is in canonical form. -/
theorem inv_reset : Inv State.reset := inv_start rfl

/-! ### The obligations -/

/-- Settles O44: the fetch phases stage what the execute phases find, and an execute phase leaves its own word alone. -/
theorem drivenRunInvariantIsKeptByEveryStep : Obligations.DrivenRunInvariantIsKeptByEveryStep :=
  fun _ _ => inv_step

/-- Settles O51: the following phase is one more in the count, and the invariant bounds the slot in progress. -/
theorem eachStepOfADrivenRunCountsOnePhase : Obligations.EachStepOfADrivenRunCountsOnePhase := by
  intro s t inv h
  have kept := inv_step inv h
  refine ⟨kept, step_mem_size h, fun running => ?_, fun done => ?_, fun f => phasesDone_step_faulted inv h⟩
  · exact ⟨phasesDone_step inv h (faultFree_of_running running), phasesDone_lt_of_running kept running⟩
  · exact ⟨phasesDone_step inv h (faultFree_of_done done), phasesDone_of_done kept done⟩

/-- Settles O43: at reset PC is 0, which is below N or, for an empty image, N itself. -/
theorem drivenRunInvariantHoldsAtReset : Obligations.DrivenRunInvariantHoldsAtReset :=
  ⟨fun _ => inv_resetFor, inv_reset⟩

/-- Settles O46: FETCH_RIGHT finds IBR equal to the right half of the word it reads again. -/
theorem refetchRewritesIbrWithItsOwnValue : Obligations.RefetchRewritesIbrWithItsOwnValue := by
  intro s inv running phase
  have range := inv.pc_lt running (not_inExecute_of_fetchRight phase)
  have ibr : s.ibr = some (rightOf (s.mem.read s.pc)) := by
    obtain ⟨_, _, _, statusInv⟩ := inv
    exact ((runningInv_of_fetchRight phase).1 ((statusInv_of_running running).1 statusInv)).2
  refine ⟨_, (Performs.fetchRight phase range).step_eq running, ?_⟩
  simp [Res.sequenced, advance_pc, ibr, phase, running]

/-- Settles O45: STOR M(X) writes MBR, which is the word of the slot. -/
theorem storInADrivenRunStoresItsOwnWord : Obligations.StorInADrivenRunStoresItsOwnWord := by
  intro s inv running exec ir range
  obtain ⟨_, _, mbr⟩ := inv.staged running exec
  have performs : Performs s (.done (s.setMem (s.mem.write s.mar (s.mem.read (slotOf s))))) :=
    .execute exec ir (.storMX _ range mbr)
  refine ⟨_, performs.step_eq running, ?_⟩
  simp +contextual [Res.sequenced, advance_pc, Memory.read_write_other, running]

/-- Settles O47: of the faults of an execute phase, STOR's of MBR cannot arise, since MBR holds the word of the slot; a sum
of two words is at most 2^41 - 2. -/
theorem aDrivenRunTakesOnlyThreeFaults : Obligations.ADrivenRunTakesOnlyThreeFaults := by
  intro s t f inv h faulted
  have running := running_of_step_next h
  obtain ⟨u, performs, -⟩ := raised_of_step_faulted h faulted
  rcases performs.driven_cases inv running with ⟨_, e⟩ | ⟨_, e⟩ | ⟨exec, i, _, _, executes⟩
  · cases e
  · cases e
  refine ⟨exec, ?_⟩
  cases executes with
  | outOfRange accesses range => exact .inl rfl
  | storMX_mbrUninitialized x range bottom =>
    obtain ⟨_, _, mbr⟩ := inv.staged running exec
    exact absurd (bottom.symm.trans mbr) (by simp)
  | addMX_acUninitialized x range ac => exact .inr (.inl rfl)
  | @addMX_overflow _ a x range ac bound =>
    have := a.isLt
    have := (s.mem.read s.mar).isLt
    exact .inr (.inr ⟨_, rfl, bound, by omega⟩)

end Sys2Proof.Machine

/-! Whole runs: inert words (spec/30_encoding.md R82), the end of a run within 4N phases (spec/40_instruction_cycle.md
R109; spec/70_reset_and_hazards.md R192, R193), and the count of its phases. -/

namespace Sys2Proof.Machine

/-! ### A driven run over inert words -/

theorem Executes.eq_done_of_isOther {i : Instr} {s : State} {r : Res} (h : Executes i s r) (other : i.isOther = true) :
    r = .done s := by
  cases h with
  | other op x => rfl
  | outOfRange accesses range =>
    cases i with
    | other op x => cases accesses
    | _ => cases other
  | _ => cases other

theorem opcode_of_inertWord {w : Word} (h : inertWord w = true) (s : State) :
    isRecognized (opcodeOf (halfOf s w)) = false := by
  obtain ⟨left, right⟩ := (inertWord_iff w).1 h
  cases phase : s.phase <;> simpa only [halfOf, phase]

/-- In an execute phase over inert words the row of IR is OTHER. -/
theorem isOther_of_inertInv {s : State} {i : Instr} (inert : InertInv s) (running : s.status = .running)
    (exec : InExecute s) (wf : i.wellFormed = true) (ir : s.ir = some i.opcode) : i.isOther = true := by
  obtain ⟨inv, _, _, _, words⟩ := inert
  obtain ⟨_, ⟨range, _, stagedIr, _⟩, _⟩ := inv.staged running exec
  have opcode : i.opcode = opcodeOf (halfOf s (s.mem.read (slotOf s))) := Option.some.inj (ir.symm.trans stagedIr)
  rw [isOther_eq_not_isRecognized wf, opcode, opcode_of_inertWord (words _ range)]
  rfl

/-- Over inert words a phase is done, and it leaves memory, AC and MQ alone. -/
theorem Performs.done_of_inertInv {s : State} {r : Res} (h : Performs s r) (inert : InertInv s)
    (running : s.status = .running) : ∃ u, r = .done u ∧ u.mem = s.mem ∧ u.ac = s.ac ∧ u.mq = s.mq := by
  rcases h.driven_cases inert.1 running with ⟨_, rfl⟩ | ⟨_, rfl⟩ | ⟨exec, i, wf, ir, executes⟩
  · exact ⟨_, rfl, rfl, rfl, rfl⟩
  · exact ⟨_, rfl, rfl, rfl, rfl⟩
  · exact ⟨s, executes.eq_done_of_isOther (isOther_of_inertInv inert running exec wf ir), rfl, rfl, rfl⟩

theorem inertInv_step {s t : State} (inert : InertInv s) (h : step s = .next t) : InertInv t ∧ t.mem = s.mem := by
  obtain ⟨running, r, performs, rfl⟩ := step_next_iff.1 h
  obtain ⟨u, rfl, sameMem, sameAc, sameMq⟩ := performs.done_of_inertInv inert running
  obtain ⟨inv, _, ac, mq, words⟩ := inert
  have fine : (advance u).FaultFree := by
    intro f
    rw [(performs.advance_phase_status running).2]
    split <;> simp
  simp only [Res.sequenced] at h ⊢
  refine ⟨⟨inv_step inv h, fine, ?_, ?_, ?_⟩, ?_⟩
  · rw [advance_ac, sameAc, ac]
  · rw [advance_mq, sameMq, mq]
  · rwa [advance_mem, sameMem]
  · rw [advance_mem, sameMem]

/-! ### Inert words at reset -/

theorem faultFree_start (m : Memory) : (State.start m).FaultFree := by
  intro f
  unfold State.start
  split <;> simp

theorem inertInv_resetFor {image : List Word} (length : image.length ≤ 4096)
    (inert : ∀ w ∈ image, inertWord w = true) : InertInv (State.resetFor image) := by
  refine ⟨inv_resetFor length, faultFree_start _, rfl, rfl, fun a range => ?_⟩
  have read : (State.resetFor image).mem.read a = image[a] := Memory.read_ofImage image range
  rw [read]
  exact inert _ (List.getElem_mem range)

/-- Every word of the memory of `State.reset` is unlisted, and reads as zero. -/
theorem inertInv_reset : InertInv State.reset :=
  ⟨inv_reset, faultFree_start _, rfl, rfl, fun _ _ => inertWord_of_lt (w := unlistedWord) (by decide)⟩

/-! ### A run of at most k phases -/

/-- A state whose status is not RUNNING has no step. -/
theorem step_ne_next {s : State} (h : s.status ≠ .running) (t : State) : step s ≠ .next t :=
  fun stepped => h (running_of_step_next stepped)

theorem runFor_of_not_running {s : State} (h : s.status ≠ .running) (k : Nat) : runFor k s = s := by
  cases status : s.status with
  | running => exact absurd status h
  | done => exact runFor_of_fault (step_of_done status) k
  | faulted f => exact runFor_of_fault (step_of_faulted status) k

theorem exists_step {s : State} (h : s.status = .running) : ∃ t, step s = .next t :=
  (stepAnswersExactlyWhileRunning s).1 h

/-- What every step keeps, a run keeps. -/
theorem runFor_induction {P : State → Prop} (kept : ∀ s t, P s → step s = .next t → P t) (k : Nat) {s : State}
    (h : P s) : P (runFor k s) := by
  induction k generalizing s with
  | zero => exact h
  | succ k ih =>
    by_cases running : s.status = .running
    · obtain ⟨t, stepped⟩ := exists_step running
      rw [runFor_next stepped]
      exact ih (kept s t h stepped)
    · rwa [runFor_of_not_running running]

/-- From a driven run, the phases that are missing from 4N end it. -/
theorem runFor_not_running {k : Nat} {s : State} (inv : Inv s) (enough : 4 * s.mem.size ≤ phasesDone s + k) :
    (runFor k s).status ≠ .running := by
  induction k generalizing s with
  | zero => exact fun running => absurd (phasesDone_lt_of_running inv running) (Nat.not_lt.mpr enough)
  | succ k ih =>
    by_cases running : s.status = .running
    · obtain ⟨t, stepped⟩ := exists_step running
      rw [runFor_next stepped]
      by_cases still : t.status = .running
      · apply ih (inv_step inv stepped)
        rw [step_mem_size stepped, phasesDone_step inv stepped (faultFree_of_running still)]
        omega
      · rwa [runFor_of_not_running still]
    · rwa [runFor_of_not_running running]

theorem run_resetFor_not_running {image : List Word} (length : image.length ≤ 4096) :
    (run (State.resetFor image)).status ≠ .running :=
  runFor_not_running (inv_resetFor length) (Nat.le_add_left _ _)

/-! ### A run of exactly k steps -/

/-- A run from a state that has no step is no step long. -/
theorem hostRun_of_not_running {k : Nat} {s t : State} (h : s.status ≠ .running)
    (run : Host.Core.run Sys2Proof.core k s = .next t) : k = 0 ∧ t = s := by
  cases k with
  | zero => cases run; exact ⟨rfl, rfl⟩
  | succ k => exact absurd run (hostRun_succ_ne_next Sys2Proof.core k (step_ne_next h) t)

/-- A run of `k + 1` steps starts in RUNNING with one step. -/
theorem hostRun_succ_cases {k : Nat} {s t : State} (run : Host.Core.run Sys2Proof.core (k + 1) s = .next t) :
    ∃ u, step s = .next u ∧ Host.Core.run Sys2Proof.core k u = .next t := by
  by_cases running : s.status = .running
  · obtain ⟨u, stepped⟩ := exists_step running
    exact ⟨u, stepped, (hostRun_succ_of_next Sys2Proof.core k stepped).symm.trans run⟩
  · exact absurd (hostRun_of_not_running running run).1 (Nat.succ_ne_zero k)

/-- As long as no fault is taken, `k` steps of a driven run are `k` phases. -/
theorem hostRun_phasesDone {k : Nat} {s t : State} (inv : Inv s) (run : Host.Core.run Sys2Proof.core k s = .next t) :
    Inv t ∧ t.mem.size = s.mem.size ∧ (t.FaultFree → phasesDone t = phasesDone s + k) := by
  induction k generalizing s with
  | zero => cases run; exact ⟨inv, rfl, fun _ => rfl⟩
  | succ k ih =>
    obtain ⟨u, stepped, rest⟩ := hostRun_succ_cases run
    obtain ⟨invT, sameSize, count⟩ := ih (inv_step inv stepped) rest
    refine ⟨invT, sameSize.trans (step_mem_size stepped), fun fine => ?_⟩
    have fineU : u.FaultFree := by
      intro f faulted
      obtain ⟨_, rfl⟩ := hostRun_of_not_running (by simp [faulted]) rest
      exact fine f faulted
    rw [count fine, phasesDone_step inv stepped fineU]
    omega

theorem phasesDone_resetFor (image : List Word) : phasesDone (State.resetFor image) = 0 := rfl

theorem mem_size_resetFor (image : List Word) : (State.resetFor image).mem.size = image.length := rfl

/-! ### The obligations -/

/-- Settles O52: the instruction staged is OTHER, which does nothing, and a fetch writes neither memory nor AC nor MQ. -/
theorem inertRunInvariantIsKeptByEveryStep : Obligations.InertRunInvariantIsKeptByEveryStep :=
  fun _ _ => inertInv_step

/-- Settles O53: the words of reset are those of the image, and a word of zeros is inert. -/
theorem inertRunInvariantHoldsAtReset : Obligations.InertRunInvariantHoldsAtReset :=
  ⟨fun _ => inertInv_resetFor, inertInv_reset⟩

/-- Settles O48: the count of phases starts at 0, grows by one a step and stays below 4N in RUNNING. -/
theorem everyRunEndsWithin4NPhases : Obligations.EveryRunEndsWithin4NPhases := by
  intro image length
  have ended := run_resetFor_not_running length
  cases status : (run (State.resetFor image)).status with
  | running => exact absurd status ended
  | done => exact .inl rfl
  | faulted f => exact .inr ⟨f, rfl⟩

/-- Settles O49: `k` fault-free steps are `k` phases; the invariant bounds the count in RUNNING and fixes it in DONE. -/
theorem aRunReachesDoneAfterExactly4NPhases : Obligations.ARunReachesDoneAfterExactly4NPhases := by
  intro image k t length run
  obtain ⟨inv, size, count⟩ := hostRun_phasesDone (inv_resetFor length) run
  rw [phasesDone_resetFor, Nat.zero_add] at count
  rw [mem_size_resetFor] at size
  refine ⟨fun running => ?_, fun done => ?_⟩
  · have phases := count (faultFree_of_running running)
    exact ⟨phases, phases ▸ size ▸ phasesDone_lt_of_running inv running⟩
  · have phases := count (faultFree_of_done done)
    obtain ⟨_, _, _, statusInv⟩ := id inv
    exact ⟨phases ▸ size ▸ phasesDone_of_done inv done, size ▸ ((statusInv_of_done done).1 statusInv).1⟩

/-- Settles O50: the run keeps the invariant of inert words and memory, so it ends without a fault, in DONE. -/
theorem inertImagesRunToDoneUnchanged : Obligations.InertImagesRunToDoneUnchanged := by
  intro image length words
  obtain ⟨inert, sameMem⟩ : InertInv (run (State.resetFor image)) ∧
      (run (State.resetFor image)).mem = (State.resetFor image).mem :=
    runFor_induction (P := fun s => InertInv s ∧ s.mem = (State.resetFor image).mem)
      (fun s t h stepped => ⟨(inertInv_step h.1 stepped).1, (inertInv_step h.1 stepped).2.trans h.2⟩)
      _ ⟨inertInv_resetFor length words, rfl⟩
  obtain ⟨⟨_, _, _, statusInv⟩, fine, ac, mq, _⟩ := inert
  have done : (run (State.resetFor image)).status = .done := by
    cases status : (run (State.resetFor image)).status with
    | running => exact absurd status (run_resetFor_not_running length)
    | done => rfl
    | faulted f => exact absurd status (fine f)
  refine ⟨done, ?_, ac, mq, sameMem⟩
  rw [((statusInv_of_done done).1 statusInv).1, sameMem, mem_size_resetFor]

end Sys2Proof.Machine

/-! Where AC and MQ go: nowhere but into each other (spec/41_data_transfer.md R123; spec/70_reset_and_hazards.md R185); and
which registers can return to ⊥ (spec/10_state.md R21). -/

namespace Sys2Proof.Machine

/-! ### The part of a phase that AC and MQ do not take part in -/

/-- The state with AC and MQ forgotten: what the rest of the machine can see. -/
def State.forget (s : State) : State := (s.setAc none).setMq none

/-- What an instruction does to everything but AC and MQ. -/
def memoryEffect (i : Instr) (s : State) : State :=
  if s.mar < s.mem.size then
    match i, s.mbr with
    | .loadMX _, _ => s.setMbr (s.mem.read s.mar)
    | .loadMqMX _, _ => s.setMbr (s.mem.read s.mar)
    | .addMX _, _ => s.setMbr (s.mem.read s.mar)
    | .subMX _, _ => s.setMbr (s.mem.read s.mar)
    | .storMX _, some w => s.setMem (s.mem.write s.mar w)
    | .storMX _, none => s
    | .loadMq _, _ => s
    | .other _ _, _ => s
  else s

/-- What the operation of a phase does to everything but AC and MQ. -/
def phaseEffect (s : State) : State :=
  match s.phase, s.ir with
  | .fetchLeft, _ => if s.pc < s.mem.size then s.stageFetched leftOf else s.setMar s.pc
  | .fetchRight, _ => if s.pc < s.mem.size then (s.stageFetched rightOf).setPc (s.pc + 1) else s.setMar s.pc
  | .execLeft, some op => memoryEffect (stagedInstr op s.mar) s
  | .execRight, some op => memoryEffect (stagedInstr op s.mar) s
  | .execLeft, none => s
  | .execRight, none => s

section
variable (s : State)

@[simp] theorem State.forget_pc : s.forget.pc = s.pc := rfl
@[simp] theorem State.forget_mar : s.forget.mar = s.mar := rfl
@[simp] theorem State.forget_mbr : s.forget.mbr = s.mbr := rfl
@[simp] theorem State.forget_ir : s.forget.ir = s.ir := rfl
@[simp] theorem State.forget_ibr : s.forget.ibr = s.ibr := rfl
@[simp] theorem State.forget_mem : s.forget.mem = s.mem := rfl
@[simp] theorem State.forget_phase : s.forget.phase = s.phase := rfl
@[simp] theorem State.forget_status : s.forget.status = s.status := rfl

end

/-- The state but for AC and MQ after an instruction is a function of the state but for AC and MQ before it. -/
theorem Executes.forget {i : Instr} {s : State} {r : Res} (h : Executes i s r) :
    r.state.forget = memoryEffect i s.forget := by
  cases h with
  | outOfRange _ range => exact (if_neg (Nat.not_lt.mpr range)).symm
  | loadMq x => exact (ite_self s.forget).symm
  | storMX x range mbr =>
    simp only [memoryEffect, State.forget_mbr, mbr]
    exact (if_pos range).symm
  | storMX_mbrUninitialized x range mbr =>
    simp only [memoryEffect, State.forget_mbr, mbr]
    exact (if_pos range).symm
  | other op x => exact (ite_self s.forget).symm
  | _ x range => exact (if_pos range).symm

theorem phaseEffect_of_inExecute {s : State} {op : Opcode} (phase : InExecute s) (ir : s.ir = some op) :
    phaseEffect s = memoryEffect (stagedInstr op s.mar) s := by
  rcases phase with phase | phase <;> simp only [phaseEffect, phase, ir]

/-- So it is after a phase. -/
theorem Performs.forget {s : State} {r : Res} (h : Performs s r) : r.state.forget = phaseEffect s.forget := by
  cases h with
  | fetchLeft phase range =>
    simp only [phaseEffect, State.forget_phase, phase]
    exact (if_pos range).symm
  | fetchRight phase range =>
    simp only [phaseEffect, State.forget_phase, phase]
    exact (if_pos range).symm
  | fetchOutOfRange phase range =>
    rcases phase_cases s with left | right | exec
    · simp only [phaseEffect, State.forget_phase, left]
      exact (if_neg (Nat.not_lt.mpr range)).symm
    · simp only [phaseEffect, State.forget_phase, right]
      exact (if_neg (Nat.not_lt.mpr range)).symm
    · exact absurd exec phase
  | irUninitialized phase ir => rcases phase with phase | phase <;> simp [phaseEffect, phase, ir, Res.state]
  | execute phase ir executes => exact executes.forget.trans (phaseEffect_of_inExecute (s := s.forget) phase ir).symm

theorem advance_forget (s : State) : (advance s).forget = advance s.forget := by
  rw [advance_eq, advance_eq]
  rfl

/-! ### Two states that differ in AC and MQ alone -/

/-- What AC and MQ leave alone: memory and the other registers, and phase and status unless a fault was taken. -/
def AgreeOffAcMq (t t' : State) : Prop :=
  t'.mem = t.mem ∧ t'.pc = t.pc ∧ t'.mar = t.mar ∧ t'.mbr = t.mbr ∧ t'.ir = t.ir ∧ t'.ibr = t.ibr ∧
    ((t'.phase = t.phase ∧ t'.status = t.status) ∨ (∃ f, t.status = .faulted f) ∨ ∃ f, t'.status = .faulted f)

theorem agreeOffAcMq_of_forget_eq {t t' : State} (h : t'.forget = t.forget) : AgreeOffAcMq t t' := by
  injection h with pc mar mbr ir ibr _ _ mem phase status
  exact ⟨mem, pc, mar, mbr, ir, ibr, .inl ⟨phase, status⟩⟩

/-- If either operation raised a fault, the rest agrees where the operations do. -/
theorem agreeOffAcMq_of_faulted {r r' : Res} (h : r'.state.forget = r.state.forget)
    (faulted : (∃ f, r.sequenced.status = .faulted f) ∨ ∃ f, r'.sequenced.status = .faulted f) :
    AgreeOffAcMq r.sequenced r'.sequenced := by
  obtain ⟨mem, pc, mar, mbr, ir, ibr, _⟩ := agreeOffAcMq_of_forget_eq h
  refine ⟨?_, ?_, ?_, ?_, ?_, ?_, .inr faulted⟩ <;> simpa

/-- One step from each of two states that differ in AC and MQ alone: the states reached do so too, or a fault was taken. -/
theorem step_agree {s s' t t' : State} (same : s'.forget = s.forget) (h : step s = .next t) (h' : step s' = .next t') :
    t'.forget = t.forget ∨ AgreeOffAcMq t t' ∧ (t.status ≠ .running ∨ t'.status ≠ .running) := by
  obtain ⟨_, r, performs, rfl⟩ := step_next_iff.1 h
  obtain ⟨_, r', performs', rfl⟩ := step_next_iff.1 h'
  have sameEnd : r'.state.forget = r.state.forget := by rw [performs.forget, performs'.forget, same]
  cases r with
  | raised f u =>
    exact .inr ⟨agreeOffAcMq_of_faulted sameEnd (.inl ⟨f, rfl⟩), .inl (by simp [Res.sequenced])⟩
  | done u =>
    cases r' with
    | raised f u' =>
      exact .inr ⟨agreeOffAcMq_of_faulted sameEnd (.inr ⟨f, rfl⟩), .inr (by simp [Res.sequenced])⟩
    | done u' =>
      refine .inl ?_
      rw [Res.sequenced, Res.sequenced, advance_forget, advance_forget]
      exact congrArg advance sameEnd

/-- Any number of steps from each: once a fault is taken, neither run goes further. -/
theorem hostRun_agree {k : Nat} {s s' t t' : State} (same : s'.forget = s.forget)
    (run : Host.Core.run Sys2Proof.core k s = .next t) (run' : Host.Core.run Sys2Proof.core k s' = .next t') :
    AgreeOffAcMq t t' := by
  induction k generalizing s s' with
  | zero =>
    cases run
    cases run'
    exact agreeOffAcMq_of_forget_eq same
  | succ k ih =>
    obtain ⟨u, stepped, rest⟩ := hostRun_succ_cases run
    obtain ⟨u', stepped', rest'⟩ := hostRun_succ_cases run'
    rcases step_agree same stepped stepped' with same | ⟨agree, stopped⟩
    · exact ih same rest rest'
    have noMore : k = 0 := by
      rcases stopped with stopped | stopped
      · exact (hostRun_of_not_running stopped rest).1
      · exact (hostRun_of_not_running stopped rest').1
    subst noMore
    cases rest
    cases rest'
    exact agree

/-! ### Registers that stay initialized -/

/-- An instruction leaves MBR and MQ initialized, and AC, but for LOAD MQ with MQ = ⊥. -/
theorem Executes.initialized {i : Instr} {s : State} {r : Res} (h : Executes i s r) :
    (s.mbr ≠ none → r.state.mbr ≠ none) ∧ (s.mq ≠ none → r.state.mq ≠ none) ∧
    (s.ac ≠ none → r.state.ac = none → (∃ x, i = .loadMq x) ∧ s.mq = none) := by
  cases h <;> simp +contextual [Res.state]

theorem Performs.initialized {s : State} {r : Res} (h : Performs s r) :
    (s.mbr ≠ none → r.state.mbr ≠ none) ∧ (s.ir ≠ none → r.state.ir ≠ none) ∧ (s.ibr ≠ none → r.state.ibr ≠ none) ∧
    (s.mq ≠ none → r.state.mq ≠ none) ∧
    (s.ac ≠ none → r.state.ac = none → InExecute s ∧ s.ir = some 0x0A ∧ s.mq = none) := by
  cases h with
  | execute phase ir executes =>
    obtain ⟨mbr, mq, ac⟩ := executes.initialized
    obtain ⟨_, _, sameIr, sameIbr, _⟩ := executes.frame
    refine ⟨mbr, by rw [sameIr]; exact id, by rw [sameIbr]; exact id, mq, fun before after => ?_⟩
    obtain ⟨⟨x, row⟩, bottom⟩ := ac before after
    have opcode := congrArg Instr.opcode row
    rw [stagedInstr_opcode] at opcode
    exact ⟨phase, by rw [ir, opcode]; rfl, bottom⟩
  | _ => simp +contextual [Res.state]

/-! ### The obligations -/

/-- Settles O40: of the assignments of a phase, only that of LOAD MQ can be of ⊥, and it is to AC. -/
theorem noRegisterReturnsToUninitializedButAcByLoadMq :
    Obligations.NoRegisterReturnsToUninitializedButAcByLoadMq := by
  intro s t h
  obtain ⟨_, r, performs, rfl⟩ := step_next_iff.1 h
  simpa only [Res.sequenced_mbr, Res.sequenced_ir, Res.sequenced_ibr, Res.sequenced_mq, Res.sequenced_ac]
    using performs.initialized

/-- Settles O41: the state but for AC and MQ after a phase is a function of the state but for AC and MQ before it. -/
theorem accumulatorAndMqNeverReachMemory : Obligations.AccumulatorAndMqNeverReachMemory := by
  intro s t t' a q h h'
  have same : ((s.setAc a).setMq q).forget = s.forget := rfl
  rcases step_agree same h h' with same | ⟨agree, _⟩
  · exact agreeOffAcMq_of_forget_eq same
  · exact agree

/-- Settles O54: by induction on the steps, since two such states step to two such states, or to a last one. -/
theorem accumulatorAndMqNeverReachMemoryInAnyRun : Obligations.AccumulatorAndMqNeverReachMemoryInAnyRun :=
  fun _ s _ _ a q run run' => hostRun_agree (s := s) (s' := (s.setAc a).setMq q) rfl run run'

end Sys2Proof.Machine

/-! The instructions one by one and their frames (spec/41_data_transfer.md, spec/42_arithmetic.md, spec/43_other_opcodes.md),
and which of them takes which fault (spec/60_exceptions.md R156, R159). -/

namespace Sys2Proof.Machine

/-! ### Frames -/

/-- An instruction leaves the status as it is, or takes a fault. -/
theorem Executes.status_taken {i : Instr} {s : State} {r : Res} (h : Executes i s r) :
    r.taken.status = s.status ∨ ∃ f, r.taken.status = .faulted f := by
  obtain ⟨_, _, _, _, _, sameStatus⟩ := h.frame
  cases r with
  | done u => exact .inl sameStatus
  | raised f u => exact .inr ⟨f, rfl⟩

theorem Executes.mem_of_not_stor {i : Instr} {s : State} {r : Res} (h : Executes i s r) (noStor : ∀ x, i ≠ .storMX x) :
    r.state.mem = s.mem := by
  rcases h.mem with e | ⟨x, _, stor, _⟩
  · exact e
  · exact absurd stor (noStor x)

theorem Executes.read_other {i : Instr} {s : State} {r : Res} (h : Executes i s r) {a : Nat} (other : a ≠ s.mar) :
    r.state.mem.read a = s.mem.read a := by
  rcases h.mem with e | ⟨_, w, _, _, _, e⟩ <;> rw [e]
  exact s.mem.read_write_other other w

/-- Only LOAD M(X), LOAD MQ and ADD M(X) write AC. -/
theorem Executes.ac {i : Instr} {s : State} {r : Res} (h : Executes i s r) :
    r.state.ac = s.ac ∨ (∃ x, i = .loadMX x) ∨ (∃ x, i = .loadMq x) ∨ ∃ x, i = .addMX x := by
  cases h <;> simp [Res.state]

/-- Only LOAD MQ,M(X) writes MQ. -/
theorem Executes.mq {i : Instr} {s : State} {r : Res} (h : Executes i s r) :
    r.state.mq = s.mq ∨ ∃ x, i = .loadMqMX x := by
  cases h <;> simp [Res.state]

/-- Only the four instructions that read memory write MBR. -/
theorem Executes.mbr {i : Instr} {s : State} {r : Res} (h : Executes i s r) :
    r.state.mbr = s.mbr ∨ (∃ x, i = .loadMX x) ∨ (∃ x, i = .loadMqMX x) ∨ (∃ x, i = .addMX x) ∨ ∃ x, i = .subMX x := by
  cases h <;> simp [Res.state]

/-! ### Which instruction takes which fault -/

/-- From RUNNING, the status after an instruction is that of the fault it raised. -/
theorem status_faulted_iff {i : Instr} {s t : State} (running : s.status = .running) (h : exec i s = .next t)
    (f : RunFault) : t.status = .faulted f ↔ ∃ u, Executes i s (.raised f u) := by
  constructor
  · intro faulted
    obtain ⟨r, executes, rfl⟩ := exec_next_iff.1 h
    obtain ⟨_, _, _, _, _, sameStatus⟩ := executes.frame
    cases r with
    | done u => exact absurd (faulted.symm.trans (sameStatus.trans running)) (by simp)
    | raised g u =>
      cases faulted
      exact ⟨u, executes⟩
  · rintro ⟨u, executes⟩
    cases executes.exec_eq.symm.trans h
    rfl

section
variable {i : Instr} {s : State}

theorem not_raises_malformedWord {k : Nat} : ¬ ∃ u, Executes i s (.raised (.malformedWord k) u) := by
  rintro ⟨u, executes⟩
  cases executes

theorem raises_addressOutOfRange_iff {a : Nat} : (∃ u, Executes i s (.raised (.addressOutOfRange a) u)) ↔
    a = s.mar ∧ s.mem.size ≤ s.mar ∧ accessesMemory i = true := by
  constructor
  · rintro ⟨u, executes⟩
    cases executes with
    | outOfRange accesses range => exact ⟨rfl, range, accesses⟩
  · rintro ⟨rfl, range, accesses⟩
    exact ⟨_, .outOfRange accesses range⟩

theorem raises_uninitializedRegister_iff {r : RegName} :
    (∃ u, Executes i s (.raised (.uninitializedRegister r) u)) ↔ s.mar < s.mem.size ∧
      ((r = .ac ∧ s.ac = none ∧ ∃ x, i = .addMX x) ∨ (r = .mbr ∧ s.mbr = none ∧ ∃ x, i = .storMX x)) := by
  constructor
  · rintro ⟨u, executes⟩
    cases executes with
    | addMX_acUninitialized x range ac => exact ⟨range, .inl ⟨rfl, ac, x, rfl⟩⟩
    | storMX_mbrUninitialized x range mbr => exact ⟨range, .inr ⟨rfl, mbr, x, rfl⟩⟩
  · rintro ⟨range, ⟨rfl, ac, x, rfl⟩ | ⟨rfl, mbr, x, rfl⟩⟩
    · exact ⟨_, .addMX_acUninitialized x range ac⟩
    · exact ⟨_, .storMX_mbrUninitialized x range mbr⟩

theorem raises_overflow_iff {n : Nat} : (∃ u, Executes i s (.raised (.overflow n) u)) ↔
    s.mar < s.mem.size ∧ (∃ x, i = .addMX x) ∧ 2 ^ 40 ≤ n ∧
      ∃ a, s.ac = some a ∧ n = a.toNat + (s.mem.read s.mar).toNat := by
  constructor
  · rintro ⟨u, executes⟩
    cases executes with
    | addMX_overflow x range ac bound => exact ⟨range, ⟨x, rfl⟩, bound, _, ac, rfl⟩
  · rintro ⟨range, ⟨x, rfl⟩, bound, a, ac, rfl⟩
    exact ⟨_, .addMX_overflow x range ac bound⟩

end

/-! ### The obligations: the instructions -/

/-- Settles O28: opcode 0x0A selects the row LOAD MQ, whose one assignment is AC's. -/
theorem loadMqCopiesMqIntoAccumulator : Obligations.LoadMqCopiesMqIntoAccumulator :=
  fun x _ => ⟨decode_joinHalf 0x0A x, (Executes.loadMq x).exec_eq⟩

/-- Settles O29: opcode 0x21 selects the row STOR M(X), whose one assignment is memory's. -/
theorem storMxStoresMbr : Obligations.StorMxStoresMbr := by
  intro x s
  refine ⟨decode_joinHalf 0x21 x, fun w range mbr => ?_, fun range => exec_of_le rfl range, fun range bottom => ?_⟩
  · exact ⟨s.mem.write s.mar w, (Executes.storMX x range mbr).exec_eq, s.mem.write_size s.mar w,
      s.mem.read_write_same s.mar w, fun a other => s.mem.read_write_other other w⟩
  · exact (Executes.storMX_mbrUninitialized x range bottom).exec_eq

/-- Settles O30: opcode 0x07 selects the row ADD M(X); a word that has the value of the sum bounds it and is its 40 bits. -/
theorem addMxAddsOrFaultsInOrder : Obligations.AddMxAddsOrFaultsInOrder := by
  intro x s
  refine ⟨decode_joinHalf 0x07 x, fun a v range ac sum => ?_, fun range => exec_of_le rfl range,
    fun range bottom => (Executes.addMX_acUninitialized x range bottom).exec_eq,
    fun a range ac bound => (Executes.addMX_overflow x range ac bound).exec_eq⟩
  have result : v = BitVec.ofNat 40 (a.toNat + (s.mem.read s.mar).toNat) := by
    rw [← sum, BitVec.ofNat_toNat, BitVec.setWidth_eq]
  rw [result]
  exact (Executes.addMX x range ac (sum ▸ v.isLt)).exec_eq

/-- Settles O31: opcode 0x06 selects the row SUB M(X), which is the staged read alone. -/
theorem subMxOnlyReadsMemory : Obligations.SubMxOnlyReadsMemory :=
  fun x _ => ⟨decode_joinHalf 0x06 x, fun range => (Executes.subMX x range).exec_eq, fun range => exec_of_le rfl range⟩

/-- Settles O32: an opcode that is none of the six selects the row OTHER, which assigns nothing. -/
theorem otherOpcodesChangeNothing : Obligations.OtherOpcodesChangeNothing := by
  intro op x s
  refine ⟨fun load sub add loadMqM loadMq stor => ?_, (Executes.other op x).exec_eq⟩
  have unrecognized : op ∉ recognizedOpcodes := by
    simp only [recognizedOpcodes, List.mem_cons, List.not_mem_nil, or_false, not_or]
    exact ⟨load, loadMqM, loadMq, stor, add, sub⟩
  rw [decode_joinHalf, decodeFields_of_not_recognized unrecognized]

/-- Settles O33: each register has its writers, and memory only STOR. -/
theorem registerInstructionsLeaveTheRestAlone : Obligations.RegisterInstructionsLeaveTheRestAlone := by
  intro i s t noStor h
  obtain ⟨r, executes, rfl⟩ := exec_next_iff.1 h
  obtain ⟨pc, mar, ir, ibr, phase, _⟩ := executes.frame
  have mem := executes.mem_of_not_stor noStor
  simp only [Res.taken_pc, Res.taken_mar, Res.taken_mbr, Res.taken_ir, Res.taken_ibr, Res.taken_ac, Res.taken_mq,
    Res.taken_mem, Res.taken_phase]
  refine ⟨mem, fun a => by rw [mem], pc, mar, ir, ibr, phase, fun noLoad noLoadMq noAdd => ?_, fun noLoadMqM => ?_,
    fun noLoad noLoadMqM noAdd noSub => ?_, executes.status_taken⟩
  · rcases executes.ac with e | ⟨x, e⟩ | ⟨x, e⟩ | ⟨x, e⟩
    exacts [e, absurd e (noLoad x), absurd e (noLoadMq x), absurd e (noAdd x)]
  · rcases executes.mq with e | ⟨x, e⟩
    exacts [e, absurd e (noLoadMqM x)]
  · rcases executes.mbr with e | ⟨x, e⟩ | ⟨x, e⟩ | ⟨x, e⟩ | ⟨x, e⟩
    exacts [e, absurd e (noLoad x), absurd e (noLoadMqM x), absurd e (noAdd x), absurd e (noSub x)]

/-- Settles O34: STOR's one write is to M[MAR], and it is no writer of a register. -/
theorem storLeavesTheRestAlone : Obligations.StorLeavesTheRestAlone := by
  intro x s t h
  obtain ⟨r, executes, rfl⟩ := exec_next_iff.1 h
  obtain ⟨pc, mar, ir, ibr, phase, _⟩ := executes.frame
  have mbr : r.state.mbr = s.mbr := by simpa using executes.mbr
  have ac : r.state.ac = s.ac := by simpa using executes.ac
  have mq : r.state.mq = s.mq := by simpa using executes.mq
  simp only [Res.taken_pc, Res.taken_mar, Res.taken_mbr, Res.taken_ir, Res.taken_ibr, Res.taken_ac, Res.taken_mq,
    Res.taken_mem, Res.taken_phase]
  exact ⟨fun a => executes.read_other, executes.mem_size, pc, mar, mbr, ir, ibr, ac, mq, phase, executes.status_taken⟩

/-- Settles O35: the two rows that perform no access answer a state built from the registers alone. -/
theorem loadMqAndOtherDoNotReachMemory : Obligations.LoadMqAndOtherDoNotReachMemory := by
  intro i s m noAccess
  cases i with
  | loadMq x => exact ⟨_, (Executes.loadMq x).exec_eq, (Executes.loadMq x).exec_eq⟩
  | other op x => exact ⟨_, (Executes.other op x).exec_eq, (Executes.other op x).exec_eq⟩
  | _ => cases noAccess

/-- Settles O38: a fault in the status is one that the instruction raised, and each has its one cause. -/
theorem eachInstructionTakesExactlyItsFaults : Obligations.EachInstructionTakesExactlyItsFaults := by
  intro i s t running h
  have raised (f : RunFault) : t.status = .faulted f ↔ ∃ u, Executes i s (.raised f u) :=
    status_faulted_iff running h f
  exact ⟨fun k faulted => not_raises_malformedWord ((raised _).1 faulted),
    fun a => (raised _).trans raises_addressOutOfRange_iff, fun r => (raised _).trans raises_uninitializedRegister_iff,
    fun n => (raised _).trans raises_overflow_iff⟩

/-! ### The obligations: the arithmetic unit -/

/-- Bit 40 of the 41 bits of a sum of two words says whether the sum is out of bound. -/
theorem getLsbD_forty_sum (a b : Word) :
    (BitVec.ofNat 41 (a.toNat + b.toNat)).getLsbD 40 = decide (2 ^ 40 ≤ a.toNat + b.toNat) := by
  have := a.isLt
  have := b.isLt
  rw [BitVec.getLsbD_ofNat, Nat.testBit_eq_decide_div_mod_eq, Bool.eq_iff_iff]
  simp only [Bool.and_eq_true, decide_eq_true_eq]
  omega

/-- Settles O36: both primitives bound the sum of the naturals, and bit 40 of the sum is the bound. -/
theorem arithmeticUnitIsExactOrOverflows : Obligations.ArithmeticUnitIsExactOrOverflows := by
  intro a b
  rw [getLsbD_forty_sum, decide_eq_false_iff_not, decide_eq_true_iff, addAbsolute_eq, addAbsolute_eq]
  refine ⟨by rw [Nat.add_comm], rfl, fun bound => ?_, fun bound => ⟨boundResult_of_le bound, bound⟩⟩
  have bound := Nat.lt_of_not_le bound
  exact ⟨_, boundResult_of_lt bound, by rw [BitVec.toNat_ofNat, Nat.mod_eq_of_lt bound]⟩

/-! ### The obligations: the staged write -/

/-- Settles O15: the bounds test comes first, then the test of MBR, and the one assignment is memory's. -/
theorem stagedWriteWritesOneSlotAndNothingElse : Obligations.StagedWriteWritesOneSlotAndNothingElse := by
  intro s
  refine ⟨fun w range mbr => ?_, writeMemory_of_none, writeMemory_of_le⟩
  exact ⟨s.mem.write s.mar w, writeMemory_of_some range mbr, s.mem.write_size s.mar w, s.mem.read_write_same s.mar w,
    fun b other => s.mem.read_write_other other w⟩

end Sys2Proof.Machine

/-! The fetch phases, and the instruction that the next step runs (spec/40_instruction_cycle.md R102, R104, R107;
spec/20_memory.md R64). -/

namespace Sys2Proof.Machine

/-! ### What a fetch stages -/

theorem stageFetched_of_read {s : State} {w : Word} (word : s.mem.read s.pc = w) (half : Word → Half) :
    (s.stageFetched half).mbr = some w ∧ Stages (s.stageFetched half) (half w) := by
  subst word
  exact ⟨rfl, rfl, rfl⟩

/-- The decoded instruction has the address that a fetch phase puts into MAR. -/
theorem decode_address_toNat (ins : Half) : (decode ins).address.toNat = addressValue ins := by
  rw [decode, decodeFields_address]
  rfl

theorem decode_opcode (ins : Half) : (decode ins).opcode = opcodeOf ins := decodeFields_opcode _ _

/-- A step from an execute phase runs the instruction that IR and MAR stage. -/
theorem step_of_stages {t : State} {ins : Half} (running : t.status = .running) (execute : InExecute t)
    (stages : Stages t ins) : step t = sequencer (exec (decode ins) t) := by
  obtain ⟨ir, _⟩ := stages
  rw [step_running running, phaseOperation_of_inExecute execute, execute_eq_exec_decodeFields ir (addressOf ins)]
  rfl

/-- A fetch that is done hands over to the execute phase of what it staged. -/
theorem fetch_then_execute {s u : State} {ins : Half} (running : s.status = .running) (fetches : Performs s (.done u))
    (fetch : ¬ InExecute s) (stages : Stages u ins) :
    ∃ t, step s = .next t ∧ t.status = .running ∧ t.phase = s.phase.succ ∧ t.pc = u.pc ∧ t.mem = u.mem ∧
      t.mar = (decode ins).address.toNat ∧ t.mbr = u.mbr ∧ step t = sequencer (exec (decode ins) t) := by
  obtain ⟨nextPhase, nextStatus⟩ := fetches.advance_phase_status running
  have stillRunning : (advance u).status = .running := by
    rw [nextStatus, if_neg fun last => fetch (.inr last.1)]
  have execute : InExecute (advance u) := by
    rcases phase_cases s with left | right | execute
    · exact .inl (by rw [nextPhase, left]; rfl)
    · exact .inr (by rw [nextPhase, right]; rfl)
    · exact absurd execute fetch
  obtain ⟨ir, mar⟩ := stages
  have stages : Stages (advance u) ins := ⟨(advance_ir u).trans ir, (advance_mar u).trans mar⟩
  exact ⟨_, fetches.step_eq running, stillRunning, nextPhase, advance_pc u, advance_mem u,
    (advance_mar u).trans (mar.trans (decode_address_toNat ins).symm), advance_mbr u,
    step_of_stages stillRunning execute stages⟩

/-! ### The placing of one instruction -/

/-- `ins` stands in the slot's word, in the half that the phase executes, and its fetch is complete. -/
def Placed (t : State) (ins : Half) : Prop :=
  t.status = .running ∧ InExecute t ∧ StagedFrom t (slotOf t) (halfOf t) ∧ halfOf t (t.mem.read (slotOf t)) = ins

/-- The end of FETCH_LEFT places the left instruction of the word it read. -/
theorem placed_fetchLeft {s : State} (running : s.status = .running) (range : s.pc < s.mem.size) :
    Placed ((fetchLeft s).state.setPhase .execLeft) (leftOf (s.mem.read s.pc)) := by
  rw [fetchLeft_eq_stageFetched range]
  exact ⟨running, .inl rfl, stagedFrom_stageFetched range leftOf, rfl⟩

/-- The end of FETCH_RIGHT places the right one, of the slot that PC has just left. -/
theorem placed_fetchRight {s : State} (running : s.status = .running) (range : s.pc < s.mem.size) :
    Placed ((fetchRight s).state.setPhase .execRight) (rightOf (s.mem.read s.pc)) := by
  rw [fetchRight_eq_stageFetched range]
  exact ⟨running, .inr rfl, stagedFrom_stageFetched range rightOf, rfl⟩

theorem Memory.lt_atLeast_size (m : Memory) (a : Nat) : a < (m.atLeast (a + 1)).size :=
  Nat.lt_of_lt_of_le (Nat.lt_succ_self a) (Nat.le_max_right m.size (a + 1))

theorem Memory.leftOf_read_putLeft (m : Memory) (a : Nat) (ins : Half) : leftOf ((m.putLeft a ins).read a) = ins := by
  rw [Memory.putLeft, Memory.read_write_same, leftOf_joinWord]

theorem Memory.rightOf_read_putRight (m : Memory) (a : Nat) (ins : Half) : rightOf ((m.putRight a ins).read a) = ins := by
  rw [Memory.putRight, Memory.read_write_same, rightOf_joinWord]

theorem placed_placeLeft (s : State) (ins : Half) : Placed (placeLeft s ins) ins := by
  have placed : Placed (placeLeft s ins) (leftOf (((s.mem.atLeast (s.pc + 1)).putLeft s.pc ins).read s.pc)) :=
    placed_fetchLeft (State.setStatus_status _ _) (s.mem.lt_atLeast_size s.pc)
  rwa [Memory.leftOf_read_putLeft] at placed

theorem placed_placeRight (s : State) (ins : Half) : Placed (placeRight s ins) ins := by
  have placed : Placed (placeRight s ins) (rightOf (((s.mem.atLeast (s.pc + 1)).putRight s.pc ins).read s.pc)) :=
    placed_fetchRight (State.setStatus_status _ _) (s.mem.lt_atLeast_size s.pc)
  rwa [Memory.rightOf_read_putRight] at placed

theorem placed_placeInstr (s : State) (ins : Half) : Placed (placeInstr s ins) ins := by
  unfold placeInstr
  split
  · exact placed_placeLeft s ins
  · exact placed_placeLeft s ins
  · exact placed_placeRight s ins
  · exact placed_placeRight (s.setPc (s.pc - 1)) ins

theorem placed_withFetchWord (s : State) (nbits w : Nat) : Placed (s.withFetchWord nbits w) (tableHalf nbits w) :=
  placed_placeInstr s (tableHalf nbits w)

theorem halfOf_execLeft {s : State} (h : s.phase = .execLeft) : halfOf s = leftOf := by simp only [halfOf, h]

theorem halfOf_execRight {s : State} (h : s.phase = .execRight) : halfOf s = rightOf := by simp only [halfOf, h]

theorem decodeTableWord_eq_some {nbits w : Nat} {i : Instr} (h : decodeTableWord nbits w = some i) :
    decode (tableHalf nbits w) = i := by
  unfold decodeTableWord at h
  split at h
  · exact Option.some.inj h
  · cases h

/-! ### The obligations -/

/-- Settles O18: in range FETCH_LEFT assigns four registers; the fault comes after MAR was set to PC. -/
theorem fetchLeftStagesTheLeftInstruction : Obligations.FetchLeftStagesTheLeftInstruction :=
  fun s => ⟨fun range => ⟨s.mem.read s.pc, rfl, fetchLeft_eq_stageFetched range⟩, fetchLeft_of_le⟩

/-- Settles O19: in range FETCH_RIGHT assigns four registers and then PC; the fault comes after MAR was set to PC. -/
theorem fetchRightStagesTheRightInstructionThenAdvancesPc :
    Obligations.FetchRightStagesTheRightInstructionThenAdvancesPc :=
  fun s => ⟨fun range => ⟨s.mem.read s.pc, rfl, fetchRight_eq_stageFetched range⟩, fetchRight_of_le⟩

/-- Settles O17: a word written is read back, and either fetch reads M[PC]. -/
theorem fetchSeesTheStoredWord : Obligations.FetchSeesTheStoredWord := by
  intro x s w range mbr
  have word : (s.mem.write s.mar w).read s.mar = w := s.mem.read_write_same s.mar w
  obtain ⟨leftMbr, leftStages⟩ :=
    stageFetched_of_read (s := (s.setMem (s.mem.write s.mar w)).setPc s.mar) word leftOf
  obtain ⟨rightMbr, rightStages⟩ :=
    stageFetched_of_read (s := (s.setMem (s.mem.write s.mar w)).setPc s.mar) word rightOf
  exact ⟨_, (Executes.storMX x range mbr).exec_eq, ⟨_, fetchLeft_eq_stageFetched range, leftMbr, leftStages⟩,
    ⟨_, fetchRight_eq_stageFetched range, rightMbr, rightStages⟩⟩

/-- Settles O21: the fetch stages the instruction, and the execute phase that follows runs what is staged. -/
theorem stepRunsTheDecodedInstruction : Obligations.StepRunsTheDecodedInstruction := by
  intro s i running range
  constructor
  · rintro phase rfl
    have next := fetch_then_execute running (.fetchLeft phase range) (not_inExecute_of_fetchLeft phase)
      (stageFetched_of_read rfl leftOf).2
    rwa [phase] at next
  · rintro phase rfl
    have next := fetch_then_execute running (.fetchRight phase range) (not_inExecute_of_fetchRight phase)
      (stageFetched_of_read rfl rightOf).2
    rwa [phase] at next

/-- Settles O22: the fetch phase that placed the instruction staged it from the word it was put into. -/
theorem withFetchWordRunsThatInstructionNext : Obligations.WithFetchWordRunsThatInstructionNext := by
  intro s nbits w i table
  obtain rfl := decodeTableWord_eq_some table
  obtain ⟨running, execute, ⟨⟨_, ibr, stages⟩, mbr⟩, word⟩ := placed_withFetchWord s nbits w
  rw [word] at stages
  obtain ⟨ir, mar⟩ := id stages
  refine ⟨s.withFetchWord nbits w, rfl, running, execute, stages, ?_, ?_, mbr, ibr, fun left => ?_, fun right => ?_,
    step_of_stages running execute stages⟩
  · rw [decode_opcode]
    exact ir
  · rw [decode_address_toNat]
    exact mar
  · rwa [halfOf_execLeft left] at word
  · rwa [halfOf_execRight right] at word

end Sys2Proof.Machine

/-! Memories as data, reset over an image, the load of a text image and the pins (spec/10_state.md R33;
spec/70_reset_and_hazards.md R180; spec/60_exceptions.md R150, R152, R166). -/

namespace Sys2Proof.Machine

/-! ### Canonical memories -/

theorem canonicalCells_cons {lo n k : Nat} {v : Word} {l : List Cell} : canonicalCells lo n ((k, v) :: l) = true ↔
    lo ≤ k ∧ k < n ∧ v ≠ unlistedWord ∧ canonicalCells (k + 1) n l = true := by
  simp [canonicalCells, and_assoc]

theorem lookupCell_of_lt {lo n a : Nat} {l : List Cell} (canonical : canonicalCells lo n l = true) (below : a < lo) :
    lookupCell a l = unlistedWord := by
  induction l generalizing lo with
  | nil => rfl
  | cons c l ih =>
    obtain ⟨k, v⟩ := c
    obtain ⟨atLeast, _, _, rest⟩ := canonicalCells_cons.1 canonical
    rw [lookupCell, if_neg (by omega)]
    exact ih rest (by omega)

/-- A listed word is not read from cells that all lie above it. -/
theorem lookupCell_ne_of_lt {lo n k : Nat} {v : Word} {l l' : List Cell} (listed : v ≠ unlistedWord)
    (canonical : canonicalCells lo n l' = true) (below : k < lo) : lookupCell k ((k, v) :: l) ≠ lookupCell k l' := by
  rwa [lookupCell, if_pos rfl, lookupCell_of_lt canonical below]

theorem cells_eq_of_lookupCell_eq {lo n : Nat} {l l' : List Cell} (canonical : canonicalCells lo n l = true)
    (canonical' : canonicalCells lo n l' = true) (same : ∀ a, a < n → lookupCell a l = lookupCell a l') : l = l' := by
  induction l generalizing lo l' with
  | nil =>
    cases l' with
    | nil => rfl
    | cons c' l' =>
      obtain ⟨k', v'⟩ := c'
      obtain ⟨_, range, listed, _⟩ := canonicalCells_cons.1 canonical'
      exact absurd (same k' range).symm (lookupCell_ne_of_lt (lo := k' + 1) (n := n) listed rfl (by omega))
  | cons c l ih =>
    obtain ⟨k, v⟩ := c
    obtain ⟨_, range, listed, rest⟩ := canonicalCells_cons.1 canonical
    cases l' with
    | nil => exact absurd (same k range) (lookupCell_ne_of_lt (lo := k + 1) (n := n) listed rfl (by omega))
    | cons c' l' =>
      obtain ⟨k', v'⟩ := c'
      obtain ⟨_, range', listed', rest'⟩ := canonicalCells_cons.1 canonical'
      rcases Nat.lt_trichotomy k k' with less | rfl | greater
      · have above : canonicalCells k' n ((k', v') :: l') = true :=
          canonicalCells_cons.2 ⟨le_refl k', range', listed', rest'⟩
        exact absurd (same k range) (lookupCell_ne_of_lt listed above less)
      · obtain rfl : v = v' := by simpa [lookupCell] using same k range
        have sameRest : ∀ a, a < n → lookupCell a l = lookupCell a l' := by
          intro a ha
          by_cases head : a = k
          · rw [lookupCell_of_lt rest (by omega), lookupCell_of_lt rest' (by omega)]
          · simpa [lookupCell, head] using same a ha
        rw [ih rest rest' sameRest]
      · have above : canonicalCells k n ((k, v) :: l) = true :=
          canonicalCells_cons.2 ⟨le_refl k, range, listed, rest⟩
        exact absurd (same k' range').symm (lookupCell_ne_of_lt listed' above greater)

theorem Memory.eq_of_read_eq {m m' : Memory} (wf : m.wf = true) (wf' : m'.wf = true) (size : m.size = m'.size)
    (same : ∀ a, a < m.size → m.read a = m'.read a) : m = m' := by
  obtain ⟨n, l⟩ := m
  obtain ⟨n', l'⟩ := m'
  obtain rfl : n = n' := size
  simp only [Memory.wf, Bool.and_eq_true] at wf wf'
  rw [cells_eq_of_lookupCell_eq wf.2 wf'.2 same]

/-- Writing back the word that is there changes nothing. -/
theorem Memory.write_read_self {m : Memory} {a : Nat} (wf : m.wf = true) (range : a < m.size) :
    m.write a (m.read a) = m := by
  refine Memory.eq_of_read_eq (Memory.wf_write _ range wf) wf rfl fun b _ => ?_
  by_cases own : b = a
  · rw [own, Memory.read_write_same]
  · exact m.read_write_other own _

/-! ### Images of words -/

theorem loadWords_of_le {image : List Word} (h : image.length ≤ 4096) :
    loadWords image = .next (State.resetFor image) := if_pos h

theorem loadWords_of_lt {image : List Word} (h : 4096 < image.length) :
    loadWords image = .refused (.imageTooLong image.length) := if_neg (Nat.not_le.mpr h)

theorem imageCells_replicate_unlistedWord (k n : Nat) : imageCells k (List.replicate n unlistedWord) = [] := by
  induction n generalizing k with
  | zero => rfl
  | succ n ih => rw [List.replicate_succ, imageCells, if_pos rfl, ih]

/-- A memory of zeros lists no word. -/
theorem Memory.ofImage_replicate_unlistedWord (n : Nat) :
    Memory.ofImage (List.replicate n unlistedWord) = { size := n, cells := [] } := by
  rw [Memory.ofImage, List.length_replicate, imageCells_replicate_unlistedWord]

/-! ### Images of text -/

/-- Digit `j` of the text is the bit of weight 2^(39-j) of the word. -/
def DigitsOf (w : Word) (text : List Char) : Prop :=
  ∀ (j : Nat) (hj : j < text.length), w.getLsbD (39 - j) = decide (text[j] = '1')

/-- The number of a binary digit: its low bit says whether the digit is 1. -/
theorem digitOf_of_binary {c : Char} (h : c = '0' ∨ c = '1') :
    ∃ d, digitOf c = some d ∧ d < 2 ∧ d.testBit 0 = decide (c = '1') := by
  rcases h with rfl | rfl
  · exact ⟨0, by decide, by decide, by decide⟩
  · exact ⟨1, by decide, by decide, by decide⟩

theorem digitOf_of_not_binary {c : Char} (h : ¬ (c = '0' ∨ c = '1')) : digitOf c = none := by
  obtain ⟨notZero, notOne⟩ := not_or.1 h
  rw [digitOf, if_neg notZero, if_neg notOne]

/-- The digits follow the bits of `acc`, the last one lowest. -/
theorem digitsValue_of_binary (acc : Nat) {text : List Char} (h : ∀ c ∈ text, c = '0' ∨ c = '1') :
    ∃ v, digitsValue acc text = some v ∧ (∀ i, v.testBit (text.length + i) = acc.testBit i) ∧
      ∀ (j : Nat) (hj : j < text.length), v.testBit (text.length - 1 - j) = decide (text[j] = '1') := by
  induction text generalizing acc with
  | nil => exact ⟨acc, rfl, fun i => by rw [List.length_nil, Nat.zero_add], fun j hj => absurd hj (Nat.not_lt_zero j)⟩
  | cons c rest ih =>
    obtain ⟨binary, restBinary⟩ := List.forall_mem_cons.1 h
    obtain ⟨d, digit, small, low⟩ := digitOf_of_binary binary
    obtain ⟨v, value, high, digits⟩ := ih (2 * acc + d) restBinary
    refine ⟨v, by simp only [digitsValue, digit, value], fun i => ?_, fun j hj => ?_⟩
    · have half : (2 * acc + d) / 2 = acc := by omega
      rw [List.length_cons, Nat.add_assoc, Nat.add_comm 1 i, high, Nat.testBit_succ, half]
    · cases j with
      | zero =>
        have lowest : (2 * acc + d).testBit 0 = d.testBit 0 := by
          rw [Nat.testBit_zero, Nat.testBit_zero, Nat.mul_add_mod]
        exact (high 0).trans (lowest.trans low)
      | succ j =>
        have position : (c :: rest).length - 1 - (j + 1) = rest.length - 1 - j := by
          rw [List.length_cons]
          omega
        rw [position]
        exact digits j (Nat.lt_of_succ_lt_succ hj)

theorem digitsValue_of_not_binary (acc : Nat) {text : List Char} (h : ¬ ∀ c ∈ text, c = '0' ∨ c = '1') :
    digitsValue acc text = none := by
  induction text generalizing acc with
  | nil => simp at h
  | cons c rest ih =>
    by_cases binary : c = '0' ∨ c = '1'
    · obtain ⟨d, digit, _⟩ := digitOf_of_binary binary
      simp only [digitsValue, digit]
      exact ih _ fun restBinary => h (List.forall_mem_cons.2 ⟨binary, restBinary⟩)
    · simp only [digitsValue, digitOf_of_not_binary binary]

theorem parseWord_of_valid {text : List Char} (h : ValidText text) : ∃ w, parseWord text = some w ∧ DigitsOf w text := by
  obtain ⟨length, binary⟩ := h
  obtain ⟨v, value, _, digits⟩ := digitsValue_of_binary 0 binary
  refine ⟨BitVec.ofNat 40 v, by rw [parseWord, if_pos length, value]; rfl, fun j hj => ?_⟩
  have digit := digits j hj
  rw [length] at digit
  rw [BitVec.getLsbD_ofNat, decide_eq_true (by omega : 39 - j < 40), Bool.true_and]
  exact digit

theorem parseWord_of_not_valid {text : List Char} (h : ¬ ValidText text) : parseWord text = none := by
  by_cases length : text.length = 40
  · rw [parseWord, if_pos length, digitsValue_of_not_binary 0 fun binary => h ⟨length, binary⟩]
    rfl
  · rw [parseWord, if_neg length]

/-- A text image all of whose elements are valid is the list of the words its elements denote. -/
theorem parseImage_of_valid (k : Nat) {image : List (List Char)} (h : ∀ t ∈ image, ValidText t) :
    ∃ ws, parseImage k image = .ok ws ∧ List.Forall₂ DigitsOf ws image := by
  induction image generalizing k with
  | nil => exact ⟨[], rfl, .nil⟩
  | cons t rest ih =>
    obtain ⟨valid, restValid⟩ := List.forall_mem_cons.1 h
    obtain ⟨w, word, digits⟩ := parseWord_of_valid valid
    obtain ⟨ws, words, restDigits⟩ := ih (k + 1) restValid
    exact ⟨w :: ws, by simp only [parseImage, word, words], .cons digits restDigits⟩

/-- The first malformed element stops the load under its index. -/
theorem parseImage_of_malformed (k : Nat) {image : List (List Char)} {j : Nat} (hj : j < image.length)
    (before : ∀ t ∈ image.take j, ValidText t) (malformed : ¬ ValidText image[j]) :
    parseImage k image = .error (k + j) := by
  induction image generalizing k j with
  | nil => exact absurd hj (Nat.not_lt_zero j)
  | cons t rest ih =>
    cases j with
    | zero =>
      have error : parseWord t = none := parseWord_of_not_valid malformed
      simp only [parseImage, error, Nat.add_zero]
    | succ j =>
      obtain ⟨valid, restValid⟩ := List.forall_mem_cons.1 before
      obtain ⟨w, word, _⟩ := parseWord_of_valid valid
      have error := ih (k + 1) (Nat.lt_of_succ_lt_succ hj) restValid malformed
      simp only [parseImage, word, error]
      rw [Nat.add_assoc, Nat.add_comm 1 j]

/-! ### The pins -/

/-- A state that is not RUNNING shows the code of its status and itself. -/
theorem pins_of_stopped {s : State} {v : Status} (status : s.status = v) (stopped : v ≠ .running) :
    s.pins.code = v.code ∧ s.pins.inspect = some s :=
  ⟨congrArg Status.code status, if_neg (status ▸ stopped)⟩

/-! ### The obligations -/

/-- Settles O16: of two canonical lists of cells that differ, the first index at which they do reads differently. -/
theorem canonicalMemoriesThatReadAlikeAreEqual : Obligations.CanonicalMemoriesThatReadAlikeAreEqual :=
  fun _ _ => Memory.eq_of_read_eq

/-- Settles O37: LOAD puts M[MAR] into MBR, and STOR writes it back to where it came from. -/
theorem loadThenStorWithNoFetchBetweenKeepsMemory : Obligations.LoadThenStorWithNoFetchBetweenKeepsMemory := by
  intro x y s wf range
  have load := (Executes.loadMX x range).exec_eq
  have stor := (Executes.storMX (s := (s.setMbr (s.mem.read s.mar)).setAc (some (s.mem.read s.mar))) y range rfl).exec_eq
  exact ⟨_, _, load, stor, Memory.write_read_self wf range, rfl⟩

/-- Settles O9: the reset state is a table of constants over the memory of the image. -/
theorem resetPutsEveryFieldAtItsValue : Obligations.ResetPutsEveryFieldAtItsValue :=
  fun image length => ⟨State.resetFor image, loadWords_of_le length, rfl, rfl, rfl, rfl, rfl, rfl, rfl, rfl, rfl,
    fun _ range => Memory.read_ofImage image range, rfl, rfl⟩

/-- Settles O10: an image of zeros lists no word, whatever its length. -/
theorem theModelsResetIsOverZeros : Obligations.TheModelsResetIsOverZeros :=
  (congrArg State.start (Memory.ofImage_replicate_unlistedWord 4096)).symm

/-- Settles O11: valid elements parse to the words of their digits, which are then loaded or refused by their number;
otherwise the first malformed element ends the parse. -/
theorem textImagesLoadOrAreRejected : Obligations.TextImagesLoadOrAreRejected := by
  intro image
  refine ⟨fun valid length => ?_, fun valid long => ?_, fun k hk before malformed => ?_⟩
  · obtain ⟨ws, parsed, digits⟩ := parseImage_of_valid 0 valid
    have sameLength := digits.length_eq
    refine ⟨ws, ?_, sameLength, fun k hk hw j hj => digits.get hw hk j hj⟩
    rw [loadText, parsed]
    exact loadWords_of_le (sameLength ▸ length)
  · obtain ⟨ws, parsed, digits⟩ := parseImage_of_valid 0 valid
    rw [loadText, parsed, ← digits.length_eq]
    exact loadWords_of_lt (digits.length_eq ▸ long)
  · rw [loadText, parseImage_of_malformed 0 hk before malformed, Nat.zero_add]

/-- Settles O12: the code is that of the status, and the state shows unless the status is RUNNING. -/
theorem pinsShowStatusCodeAndTheStoppedState : Obligations.PinsShowStatusCodeAndTheStoppedState :=
  fun _ => ⟨rfl, fun running => ⟨congrArg Status.code running, if_pos running⟩, fun done => pins_of_stopped done nofun,
    fun _ faulted => pins_of_stopped faulted nofun, fun _ faulted => pins_of_stopped faulted nofun,
    fun _ faulted => pins_of_stopped faulted nofun, fun _ faulted => pins_of_stopped faulted nofun⟩

end Sys2Proof.Machine
